-- ==== Sys2Proof/Word.lean ====
section
/-! DEFINITION. The word types of chip8-emu CORE (00_scope.md R6, R7). -/

namespace Sys2Proof

/-- An 8-bit value: a general register, a timer, a memory cell, the field `kk`. -/
abbrev Byte := BitVec 8

/-- A 16-bit value: `PC`, `I`, a stack entry, an instruction word. -/
abbrev Word := BitVec 16

/-- A 4-bit field of an instruction word: a register selector `x` or `y`, or `n` (30_encoding.md R51). -/
abbrev Nibble := BitVec 4

/-- The 12-bit address immediate `nnn` (30_encoding.md R51). -/
abbrev Imm12 := BitVec 12

end Sys2Proof
end

