-- ==== Sys2Proof/Syntax.lean ====
section
/-! DEFINITION. The 34 instructions (30_encoding.md R59), each with its field values (R63). -/

namespace Sys2Proof

/-- One constructor per row of R59, in its order. An operand `ign` is the nibble the decoder ignores (R57):
it is kept so that no bit of a word is lost, and no meaning reads it. In `shr` and `shl` the operand `y` is
decoded and not used (42_alu.md R100, R102; log entry 15). -/
inductive Instr where
  /-- `CLS`, `0-E0` -/
  | cls (ign : Nibble)
  /-- `RET`, `0-EE` -/
  | ret (ign : Nibble)
  /-- `JP nnn`, `1nnn` -/
  | jp (nnn : Imm12)
  /-- `CALL nnn`, `2nnn` -/
  | call (nnn : Imm12)
  /-- `SE Vx,kk`, `3xkk` -/
  | seImm (x : Nibble) (kk : Byte)
  /-- `SNE Vx,kk`, `4xkk` -/
  | sneImm (x : Nibble) (kk : Byte)
  /-- `SE Vx,Vy`, `5xy-` -/
  | seReg (x y ign : Nibble)
  /-- `LD Vx,kk`, `6xkk` -/
  | ldImm (x : Nibble) (kk : Byte)
  /-- `ADD Vx,kk`, `7xkk` -/
  | addImm (x : Nibble) (kk : Byte)
  /-- `LD Vx,Vy`, `8xy0` -/
  | ldReg (x y : Nibble)
  /-- `OR Vx,Vy`, `8xy1` -/
  | orReg (x y : Nibble)
  /-- `AND Vx,Vy`, `8xy2` -/
  | andReg (x y : Nibble)
  /-- `XOR Vx,Vy`, `8xy3` -/
  | xorReg (x y : Nibble)
  /-- `ADD Vx,Vy`, `8xy4` -/
  | addReg (x y : Nibble)
  /-- `SUB Vx,Vy`, `8xy5` -/
  | sub (x y : Nibble)
  /-- `SHR Vx`, `8xy6` -/
  | shr (x y : Nibble)
  /-- `SUBN Vx,Vy`, `8xy7` -/
  | subn (x y : Nibble)
  /-- `SHL Vx`, `8xyE` -/
  | shl (x y : Nibble)
  /-- `SNE Vx,Vy`, `9xy-` -/
  | sneReg (x y ign : Nibble)
  /-- `LD I,nnn`, `Annn` -/
  | ldI (nnn : Imm12)
  /-- `JP V0,nnn`, `Bnnn` -/
  | jpV0 (nnn : Imm12)
  /-- `RND Vx,kk`, `Cxkk` -/
  | rnd (x : Nibble) (kk : Byte)
  /-- `DRW Vx,Vy,n`, `Dxyn` -/
  | drw (x y n : Nibble)
  /-- `SKP Vx`, `Ex9E` -/
  | skp (x : Nibble)
  /-- `SKNP Vx`, `ExA1` -/
  | sknp (x : Nibble)
  /-- `LD Vx,DT`, `Fx07` -/
  | ldVxDt (x : Nibble)
  /-- `LD Vx,K`, `Fx0A` -/
  | ldVxK (x : Nibble)
  /-- `LD DT,Vx`, `Fx15` -/
  | ldDtVx (x : Nibble)
  /-- `LD ST,Vx`, `Fx18` -/
  | ldStVx (x : Nibble)
  /-- `ADD I,Vx`, `Fx1E` -/
  | addI (x : Nibble)
  /-- `LD F,Vx`, `Fx29` -/
  | ldF (x : Nibble)
  /-- `LD B,Vx`, `Fx33` -/
  | ldB (x : Nibble)
  /-- `LD [I],Vx`, `Fx55` -/
  | ldMemVx (x : Nibble)
  /-- `LD Vx,[I]`, `Fx65` -/
  | ldVxMem (x : Nibble)
  deriving DecidableEq, Repr

end Sys2Proof
end

