-- ==== Sys2Proof/WellFormed.lean ====
section
/-! DEFINITION. When an instruction is well formed: in the canonical spelling that an assembler emits
(30_encoding.md R57). Every field is in range by its type, so the ignored nibble is all there is to check.
The core executes the other spellings too (R57), so no meaning and no step asks for this (log entry 15). -/

namespace Sys2Proof

/-- The ignored nibble is 0 where the instruction has one (R57: "The canonical spelling of these instructions
has the ignored nibble 0"). -/
def Instr.wellFormed : Instr → Bool
  | .cls ign => ign == 0
  | .ret ign => ign == 0
  | .jp _ => true
  | .call _ => true
  | .seImm _ _ => true
  | .sneImm _ _ => true
  | .seReg _ _ ign => ign == 0
  | .ldImm _ _ => true
  | .addImm _ _ => true
  | .ldReg _ _ => true
  | .orReg _ _ => true
  | .andReg _ _ => true
  | .xorReg _ _ => true
  | .addReg _ _ => true
  | .sub _ _ => true
  | .shr _ _ => true
  | .subn _ _ => true
  | .shl _ _ => true
  | .sneReg _ _ ign => ign == 0
  | .ldI _ => true
  | .jpV0 _ => true
  | .rnd _ _ => true
  | .drw _ _ _ => true
  | .skp _ => true
  | .sknp _ => true
  | .ldVxDt _ => true
  | .ldVxK _ => true
  | .ldDtVx _ => true
  | .ldStVx _ => true
  | .addI _ => true
  | .ldF _ => true
  | .ldB _ => true
  | .ldMemVx _ => true
  | .ldVxMem _ => true

end Sys2Proof
end

