-- ==== Sys2Proof/Decode.lean ====
section
/-! DEFINITION. Decoding and encoding (30_encoding.md R50 to R59, R63). -/

namespace Sys2Proof

/-! The decoder's six fields, extracted from every word (R51). -/

/-- `op`, bits 15:12. -/
def Word.op (w : Word) : Nibble := w.extractLsb' 12 4

/-- `x`, bits 11:8. -/
def Word.x (w : Word) : Nibble := w.extractLsb' 8 4

/-- `y`, bits 7:4. -/
def Word.y (w : Word) : Nibble := w.extractLsb' 4 4

/-- `n`, bits 3:0. -/
def Word.n (w : Word) : Nibble := w.extractLsb' 0 4

/-- `kk`, bits 7:0. -/
def Word.kk (w : Word) : Byte := w.extractLsb' 0 8

/-- `nnn`, bits 11:0. -/
def Word.nnn (w : Word) : Imm12 := w.extractLsb' 0 12

/-! Second level of dispatch: the four polymorphic families (R54, R56). `none` is "unsupported" (R58). -/

/-- Family 0, keyed by `kk`; bits 11:8 take no part (R57). -/
def decodeFamily0 (w : Word) : Option Instr :=
  if Word.kk w = 0xE0 then some (.cls (Word.x w))
  else if Word.kk w = 0xEE then some (.ret (Word.x w))
  else none

/-- Family 8, keyed by `n`; the keys 8 to D and F have no handler (42_alu.md R103). -/
def decodeFamily8 (w : Word) : Option Instr :=
  if Word.n w = 0x0 then some (.ldReg (Word.x w) (Word.y w))
  else if Word.n w = 0x1 then some (.orReg (Word.x w) (Word.y w))
  else if Word.n w = 0x2 then some (.andReg (Word.x w) (Word.y w))
  else if Word.n w = 0x3 then some (.xorReg (Word.x w) (Word.y w))
  else if Word.n w = 0x4 then some (.addReg (Word.x w) (Word.y w))
  else if Word.n w = 0x5 then some (.sub (Word.x w) (Word.y w))
  else if Word.n w = 0x6 then some (.shr (Word.x w) (Word.y w))
  else if Word.n w = 0x7 then some (.subn (Word.x w) (Word.y w))
  else if Word.n w = 0xE then some (.shl (Word.x w) (Word.y w))
  else none

/-- Family E, keyed by `kk`. -/
def decodeFamilyE (w : Word) : Option Instr :=
  if Word.kk w = 0x9E then some (.skp (Word.x w))
  else if Word.kk w = 0xA1 then some (.sknp (Word.x w))
  else none

/-- Family F, keyed by `kk`. -/
def decodeFamilyF (w : Word) : Option Instr :=
  if Word.kk w = 0x07 then some (.ldVxDt (Word.x w))
  else if Word.kk w = 0x0A then some (.ldVxK (Word.x w))
  else if Word.kk w = 0x15 then some (.ldDtVx (Word.x w))
  else if Word.kk w = 0x18 then some (.ldStVx (Word.x w))
  else if Word.kk w = 0x1E then some (.addI (Word.x w))
  else if Word.kk w = 0x29 then some (.ldF (Word.x w))
  else if Word.kk w = 0x33 then some (.ldB (Word.x w))
  else if Word.kk w = 0x55 then some (.ldMemVx (Word.x w))
  else if Word.kk w = 0x65 then some (.ldVxMem (Word.x w))
  else none

/-- Decoding a word: total, and a function of the word only (R63). The first level is by `op` (R55). The
numbers are the spec's R55 and R56 (UNVERIFIED by its source, log entry 5). -/
def decodeWord (w : Word) : Option Instr :=
  if Word.op w = 0x0 then decodeFamily0 w
  else if Word.op w = 0x1 then some (.jp (Word.nnn w))
  else if Word.op w = 0x2 then some (.call (Word.nnn w))
  else if Word.op w = 0x3 then some (.seImm (Word.x w) (Word.kk w))
  else if Word.op w = 0x4 then some (.sneImm (Word.x w) (Word.kk w))
  else if Word.op w = 0x5 then some (.seReg (Word.x w) (Word.y w) (Word.n w))
  else if Word.op w = 0x6 then some (.ldImm (Word.x w) (Word.kk w))
  else if Word.op w = 0x7 then some (.addImm (Word.x w) (Word.kk w))
  else if Word.op w = 0x8 then decodeFamily8 w
  else if Word.op w = 0x9 then some (.sneReg (Word.x w) (Word.y w) (Word.n w))
  else if Word.op w = 0xA then some (.ldI (Word.nnn w))
  else if Word.op w = 0xB then some (.jpV0 (Word.nnn w))
  else if Word.op w = 0xC then some (.rnd (Word.x w) (Word.kk w))
  else if Word.op w = 0xD then some (.drw (Word.x w) (Word.y w) (Word.n w))
  else if Word.op w = 0xE then decodeFamilyE w
  else decodeFamilyF w

/-- The word whose first byte in memory is `hi` and whose second is `lo` (R50, 20_memory.md R33). -/
def wordOfBytes (hi lo : Byte) : Word := hi ++ lo

/-- The high byte of a word, the one at the lower address. -/
def Word.hiByte (w : Word) : Byte := w.extractLsb' 8 8

/-- The low byte of a word, the one at the higher address. -/
def Word.loByte (w : Word) : Byte := w.extractLsb' 0 8

/-- What decoding a string of bytes answers. -/
inductive DecodeResult where
  /-- an instruction and the bytes after it -/
  | ok (i : Instr) (rest : List Byte)
  /-- fewer than two bytes are left: no instruction word (R50) -/
  | truncated
  /-- the word has no handler (R58) -/
  | unsupported (word : Word)
  deriving DecidableEq, Repr

/-- Decoding bytes: every instruction is one word of two bytes, high byte first (R50, R62). -/
def decode : List Byte → DecodeResult
  | hi :: lo :: rest =>
    match decodeWord (wordOfBytes hi lo) with
    | some i => .ok i rest
    | none => .unsupported (wordOfBytes hi lo)
  | [_] => .truncated
  | [] => .truncated

/-! Encoding (R52, R59). -/

/-- Format `XK`: `op`, `x`, `kk`. With `op` and `kk` fixed it is also the formats `Z` and `X`. -/
def packXK (op x : Nibble) (kk : Byte) : Word := op ++ x ++ kk

/-- Format `A`: `op`, `nnn`. -/
def packA (op : Nibble) (nnn : Imm12) : Word := op ++ nnn

/-- Formats `XY` and `XYN`: `op`, `x`, `y`, `n`. -/
def packXYN (op x y n : Nibble) : Word := op ++ x ++ y ++ n

/-- The instruction word (R59). -/
def encode : Instr → Word
  | .cls ign => packXK 0x0 ign 0xE0
  | .ret ign => packXK 0x0 ign 0xEE
  | .jp nnn => packA 0x1 nnn
  | .call nnn => packA 0x2 nnn
  | .seImm x kk => packXK 0x3 x kk
  | .sneImm x kk => packXK 0x4 x kk
  | .seReg x y ign => packXYN 0x5 x y ign
  | .ldImm x kk => packXK 0x6 x kk
  | .addImm x kk => packXK 0x7 x kk
  | .ldReg x y => packXYN 0x8 x y 0x0
  | .orReg x y => packXYN 0x8 x y 0x1
  | .andReg x y => packXYN 0x8 x y 0x2
  | .xorReg x y => packXYN 0x8 x y 0x3
  | .addReg x y => packXYN 0x8 x y 0x4
  | .sub x y => packXYN 0x8 x y 0x5
  | .shr x y => packXYN 0x8 x y 0x6
  | .subn x y => packXYN 0x8 x y 0x7
  | .shl x y => packXYN 0x8 x y 0xE
  | .sneReg x y ign => packXYN 0x9 x y ign
  | .ldI nnn => packA 0xA nnn
  | .jpV0 nnn => packA 0xB nnn
  | .rnd x kk => packXK 0xC x kk
  | .drw x y n => packXYN 0xD x y n
  | .skp x => packXK 0xE x 0x9E
  | .sknp x => packXK 0xE x 0xA1
  | .ldVxDt x => packXK 0xF x 0x07
  | .ldVxK x => packXK 0xF x 0x0A
  | .ldDtVx x => packXK 0xF x 0x15
  | .ldStVx x => packXK 0xF x 0x18
  | .addI x => packXK 0xF x 0x1E
  | .ldF x => packXK 0xF x 0x29
  | .ldB x => packXK 0xF x 0x33
  | .ldMemVx x => packXK 0xF x 0x55
  | .ldVxMem x => packXK 0xF x 0x65

/-- The two bytes of an instruction as memory holds them (R50). -/
def encodeBytes (i : Instr) : List Byte := [Word.hiByte (encode i), Word.loByte (encode i)]

/-- The columns `match` and `mask` of the opcode map (R59): a word `w` selects the row when
`w & mask = match`. -/
def Instr.row : Instr → Word × Word
  | .cls _ => (0x00E0, 0xF0FF)
  | .ret _ => (0x00EE, 0xF0FF)
  | .jp _ => (0x1000, 0xF000)
  | .call _ => (0x2000, 0xF000)
  | .seImm _ _ => (0x3000, 0xF000)
  | .sneImm _ _ => (0x4000, 0xF000)
  | .seReg _ _ _ => (0x5000, 0xF000)
  | .ldImm _ _ => (0x6000, 0xF000)
  | .addImm _ _ => (0x7000, 0xF000)
  | .ldReg _ _ => (0x8000, 0xF00F)
  | .orReg _ _ => (0x8001, 0xF00F)
  | .andReg _ _ => (0x8002, 0xF00F)
  | .xorReg _ _ => (0x8003, 0xF00F)
  | .addReg _ _ => (0x8004, 0xF00F)
  | .sub _ _ => (0x8005, 0xF00F)
  | .shr _ _ => (0x8006, 0xF00F)
  | .subn _ _ => (0x8007, 0xF00F)
  | .shl _ _ => (0x800E, 0xF00F)
  | .sneReg _ _ _ => (0x9000, 0xF000)
  | .ldI _ => (0xA000, 0xF000)
  | .jpV0 _ => (0xB000, 0xF000)
  | .rnd _ _ => (0xC000, 0xF000)
  | .drw _ _ _ => (0xD000, 0xF000)
  | .skp _ => (0xE09E, 0xF0FF)
  | .sknp _ => (0xE0A1, 0xF0FF)
  | .ldVxDt _ => (0xF007, 0xF0FF)
  | .ldVxK _ => (0xF00A, 0xF0FF)
  | .ldDtVx _ => (0xF015, 0xF0FF)
  | .ldStVx _ => (0xF018, 0xF0FF)
  | .addI _ => (0xF01E, 0xF0FF)
  | .ldF _ => (0xF029, 0xF0FF)
  | .ldB _ => (0xF033, 0xF0FF)
  | .ldMemVx _ => (0xF055, 0xF0FF)
  | .ldVxMem _ => (0xF065, 0xF0FF)

/-- The instruction word a row of the opcode table stands for: `nbits` bits of `w`, the rest 0. -/
def tableWord (nbits w : Nat) : Word := BitVec.ofNat 16 (w % 2 ^ nbits)

/-- The instruction the decoder reads from an opcode-table row's bits, laid out big-endian in memory. -/
def decodeTableWord (nbits w : Nat) : Option Instr :=
  match decode [Word.hiByte (tableWord nbits w), Word.loByte (tableWord nbits w)] with
  | .ok i _ => some i
  | .truncated => none
  | .unsupported _ => none

end Sys2Proof
end

