-- ==== Sys2Proof/Machine/Font.lean ====
section
/-! DEFINITION. The font table that reset leaves in memory (10_state.md R13; log entry 6). -/

namespace Sys2Proof.Machine

/-- `FONT_BASE`: the address of glyph 0 (R6, 10_state.md R13). -/
def fontBase : Nat := 0x050

/-- Glyphs 0 to 3, five bytes each, top row first (10_state.md R13; log entry 6). -/
def font0to3 : List Byte :=
  [0xF0, 0x90, 0x90, 0x90, 0xF0,
   0x20, 0x60, 0x20, 0x20, 0x70,
   0xF0, 0x10, 0xF0, 0x80, 0xF0,
   0xF0, 0x10, 0xF0, 0x10, 0xF0]

/-- Glyphs 4 to 7 (10_state.md R13). -/
def font4to7 : List Byte :=
  [0x90, 0x90, 0xF0, 0x10, 0x10,
   0xF0, 0x80, 0xF0, 0x10, 0xF0,
   0xF0, 0x80, 0xF0, 0x90, 0xF0,
   0xF0, 0x10, 0x20, 0x40, 0x40]

/-- Glyphs 8 to B (10_state.md R13). -/
def font8toB : List Byte :=
  [0xF0, 0x90, 0xF0, 0x90, 0xF0,
   0xF0, 0x90, 0xF0, 0x10, 0xF0,
   0xF0, 0x90, 0xF0, 0x90, 0x90,
   0xE0, 0x90, 0xE0, 0x90, 0xE0]

/-- Glyphs C to F (10_state.md R13). -/
def fontCtoF : List Byte :=
  [0xF0, 0x80, 0x80, 0x80, 0xF0,
   0xE0, 0x90, 0x90, 0x90, 0xE0,
   0xF0, 0x80, 0xF0, 0x80, 0xF0,
   0xF0, 0x80, 0xF0, 0x80, 0x80]

/-- `FONT[0..79]`: the font table (R6, 10_state.md R13; UNVERIFIED by the spec's source, log entry 6). -/
def font : List Byte := font0to3 ++ font4to7 ++ font8toB ++ fontCtoF

end Sys2Proof.Machine
end

