-- ==== Sys2Proof/Config.lean ====
section
/-! DEFINITION. The parameters of the hardware (00_scope.md R6) and the model's free value. -/

namespace Sys2Proof.Config

/-- `MEM_SIZE`: bytes of memory; an address is masked to 12 bits, that is reduced modulo this (R6, R31). -/
def memSize : Nat := 4096

/-- `PROG_BASE`: where an image is loaded and where `PC` starts (R6, 10_state.md R15). -/
def progBase : Nat := 0x200

/-- `IMAGE_MAX`: the largest program image in bytes (R6, 20_memory.md R44). -/
def imageMax : Nat := 3584

/-- `UNSUPPORTED_POLICY`: what follows an `UnsupportedOpcode` (R6, 60_exceptions.md R151). -/
inductive UnsupportedPolicy where
  /-- latch the fault; the core stops -/
  | halt
  /-- report the word for that step only; the core goes on at the next word -/
  | skip
  deriving DecidableEq, Repr

/-- The default the spec gives: `halt` (R6, R151; log entry 3). -/
def defaultPolicy : UnsupportedPolicy := .halt

/-- `SEED` after reset: DESIGN CHOICE 0, the spec leaves it open (R6, 10_state.md R23; log entry 2). -/
def seed : Nat := 0

/-- `RNG`, a FREE VALUE: the byte that a generator seeded with the first argument yields at the position
that is the second. Nothing constrains it (42_alu.md R108 "any of the 256 values"; log entry 1). -/
opaque randByte : Nat → Nat → Byte

end Sys2Proof.Config
end

