-- ==== Sys2Proof/Machine/State.lean ====
section
/-! DEFINITION. The state of the machine as plain data (10_state.md R10 to R27) and its reset value (R25). -/

namespace Sys2Proof.Machine

/-- Memory: the cells that differ from their reset contents, as (address, byte) pairs with addresses rising
(10_state.md R10). What an unlisted address reads as is `Memory.unlisted`. -/
abbrev Memory := List Host.Cell

/-- The key-wait marker (10_state.md R21). -/
inductive Wait where
  /-- instructions are fetched and executed -/
  | running
  /-- suspended until a key is pressed, whose number goes to register `r` -/
  | awaitingKey (r : Nibble)
  deriving DecidableEq, Repr

/-- The conditions the fault latch records (10_state.md R22, 60_exceptions.md R150). A latched fault is a
state of the machine, not an outcome of a step: see `State.fault`. -/
inductive CoreFault where
  /-- the word at `pc` has no handler (60_exceptions.md R151) -/
  | unsupportedOpcode (word pc : Word)
  /-- a `CALL` with 16 entries in use (60_exceptions.md R153) -/
  | stackOverflow
  /-- a `RET` with no entry in use (60_exceptions.md R154) -/
  | stackUnderflow
  deriving DecidableEq, Repr

/-- What is reported for one step under the policy `skip` (60_exceptions.md R151). -/
structure Report where
  word : Word
  pc : Word
  deriving DecidableEq, Repr

/-- The random source (10_state.md R23): a sequence of bytes and the position of the next draw. The bytes
the environment has injected stand at the front of the sequence ("must be injected as a replaceable seedable
generator"); what follows them is the free value of `Config.randByte` (log entries 1 and 2). -/
structure Rng where
  seed : Nat
  injected : List Byte
  drawn : Nat
  deriving DecidableEq, Repr

/-- The framebuffer (10_state.md R19): 32 rows of 64 pixels, row 0 first; bit `px` of row `py` is the pixel in
column `px` (log entry 8). -/
abbrev Framebuffer := Vector (BitVec 64) 32

/-- All the machine's state (10_state.md R10 to R23), and the model's own `policy` and `report`. -/
structure State where
  /-- memory (R10) -/
  mem : Memory
  /-- V0 to VF (R11, R12) -/
  v : Vector Byte 16
  /-- the index register `I` (R14) -/
  i : Word
  /-- the program counter (R15) -/
  pc : Word
  /-- the delay timer (R16) -/
  dt : Byte
  /-- the sound timer (R17) -/
  st : Byte
  /-- the call stack (R18) -/
  stack : Vector Word 16
  /-- the number of stack entries in use, 0 to 16 (R18) -/
  sp : Fin 17
  /-- the framebuffer (R19) -/
  fb : Framebuffer
  /-- the key matrix, an input the host writes (R20) -/
  keys : Vector Bool 16
  /-- the key-wait marker (R21) -/
  wait : Wait
  /-- the fault latch; `none` is the spec's `NONE` (R22) -/
  fault : Option CoreFault
  /-- the random source (R23) -/
  rng : Rng
  /-- the parameter UNSUPPORTED_POLICY, the model's own field (00_scope.md R6; log entry 3) -/
  policy : Config.UnsupportedPolicy
  /-- what the last fetching step reported under the policy `skip`, the model's own field (log entry 4) -/
  report : Option Report
  deriving DecidableEq, Repr

/-- The machine right after reset (R25, 70_reset_and_hazards.md R175; log entries 2, 3, 4 and 11). -/
def State.reset : State where
  mem := []
  v := Vector.replicate 16 0
  i := 0
  pc := 0x200
  dt := 0
  st := 0
  stack := Vector.replicate 16 0
  sp := 0
  fb := Vector.replicate 32 0
  keys := Vector.replicate 16 false
  wait := .running
  fault := none
  rng := { seed := Config.seed, injected := [], drawn := 0 }
  policy := Config.defaultPolicy
  report := none

/-- The reasons a step could stop with `Outcome.fault`: there is none, and nothing raises one. Every address is
masked, so no access fails (20_memory.md R31), and the spec's own error conditions leave the machine in a
state, with the latch `State.fault` set (60_exceptions.md R152). An empty type is safe: no run is cut short
(log entry 13). -/
inductive Fault where
  deriving DecidableEq, Repr

/-- The reasons a step could be refused. -/
inductive Refusal where
  /-- raised by an arm of `exec` whose instruction has no meaning yet; no arm does so now. Safe. -/
  | notModelled (mnemonic : String)
  deriving DecidableEq, Repr

/-- What a step or a meaning answers. -/
abbrev Result := Host.Outcome State Fault Refusal

end Sys2Proof.Machine
end

