-- ==== Sys2Proof/Machine/Ops.lean ====
section
/-! DEFINITION. The named operations over registers, memory, the stack, the framebuffer, the keys and the
random source, and the one operation that takes a fault. -/

namespace Sys2Proof.Machine

/-! ## General registers (10_state.md R11) -/

/-- `V[r]`. No register is hard-wired; V0 and VF are ordinary registers here (R11). -/
def State.reg (s : State) (r : Nibble) : Byte := s.v[r.toNat]'r.isLt

/-- `V[r] <- b`. -/
def State.setReg (s : State) (r : Nibble) (b : Byte) : State := { s with v := s.v.set r.toNat b r.isLt }

/-- Write consecutive registers from number `k` on (43_index_memory.md R116); there is none above VF. -/
def writeRegs (v : Vector Byte 16) (k : Nat) : List Byte → Vector Byte 16
  | [] => v
  | b :: rest => writeRegs (v.setIfInBounds k b) (k + 1) rest

/-- Replace all sixteen registers. -/
def State.setRegs (s : State) (v : Vector Byte 16) : State := { s with v := v }

/-! ## The other registers -/

/-- `I <- w` (10_state.md R14): all 16 bits are kept. -/
def State.setI (s : State) (w : Word) : State := { s with i := w }

/-- `PC <- w` (10_state.md R15): all 16 bits are kept. -/
def State.setPc (s : State) (w : Word) : State := { s with pc := w }

/-- `DT <- b` (10_state.md R16). -/
def State.setDt (s : State) (b : Byte) : State := { s with dt := b }

/-- `ST <- b` (10_state.md R17). -/
def State.setSt (s : State) (b : Byte) : State := { s with st := b }

/-- Write the key-wait marker (10_state.md R21). -/
def State.setWait (s : State) (w : Wait) : State := { s with wait := w }

/-- The further `PC <- (PC + 2) mod 65536` of a skip whose condition holds (41_flow.md R83). -/
def State.skipIf (s : State) (c : Bool) : State := if c then s.setPc (s.pc + 2) else s

/-- Phase 4 of a step: the advance by 2 modulo 65536 (40_step_cycle.md R69). A step that fetches also ends
the report of the step before it (60_exceptions.md R151 "for that step only"; log entry 4). -/
def State.advance (s : State) : State := { s with pc := s.pc + 2, report := none }

/-! ## Memory (20_memory.md) -/

/-- What a cell reads as while memory does not list it: its reset byte, the font or 0 (10_state.md R25;
log entries 6 and 11). -/
def Memory.unlisted (a : Nat) : Byte :=
  if fontBase ≤ a then font.getD (a - fontBase) 0 else 0

/-- `addr & 0x0FFF` (20_memory.md R31). -/
def maskAddr (addr : Nat) : Nat := addr % Config.memSize

/-- The cell at an address below `memSize`. -/
def Memory.cell : Memory → Nat → Byte
  | [], a => Memory.unlisted a
  | (k, b) :: rest, a => if k = a then b else Memory.cell rest a

/-- Put a cell before the listed ones, unless its byte is what an unlisted address reads as. -/
def Memory.place (a : Nat) (b : Byte) (rest : Memory) : Memory :=
  if b = Memory.unlisted a then rest else (a, b) :: rest

/-- Set the cell at an address below `memSize`, keeping the canonical form. -/
def Memory.setCell : Memory → Nat → Byte → Memory
  | [], a, b => Memory.place a b []
  | (k, c) :: rest, a, b =>
    if a < k then Memory.place a b ((k, c) :: rest)
    else if a = k then Memory.place a b rest
    else (k, c) :: Memory.setCell rest a b

/-- `MemRead(addr, 1)`: the address is masked, and the read always succeeds (20_memory.md R31). -/
def Memory.read (m : Memory) (addr : Nat) : Byte := Memory.cell m (maskAddr addr)

/-- `MemWrite(addr, 1, b)`: the address is masked, and nothing is protected (20_memory.md R32). -/
def Memory.write (m : Memory) (addr : Nat) (b : Byte) : Memory := Memory.setCell m (maskAddr addr) b

/-- `n` consecutive bytes from `addr` on, each address masked (43_index_memory.md R110). -/
def Memory.readList (m : Memory) (addr : Nat) : Nat → List Byte
  | 0 => []
  | n + 1 => Memory.read m addr :: Memory.readList m (addr + 1) n

/-- Write consecutive bytes from `addr` on, in ascending order, each address masked (R45, R110). -/
def Memory.writeList (m : Memory) (addr : Nat) : List Byte → Memory
  | [] => m
  | b :: rest => Memory.writeList (Memory.write m addr b) (addr + 1) rest

/-- The canonical form from address `lo` on: addresses rise strictly and stay below `memSize`, and no entry
equals what an unlisted address reads as. -/
def Memory.wfFrom (lo : Nat) : Memory → Bool
  | [] => true
  | (a, b) :: rest =>
    decide (lo ≤ a) && decide (a < Config.memSize) && !(b == Memory.unlisted a) && Memory.wfFrom (a + 1) rest

/-- Memory is in its one canonical form. -/
def Memory.wf (m : Memory) : Bool := Memory.wfFrom 0 m

/-- `MemRead(addr, 1)` of the machine's memory. -/
def State.memRead (s : State) (addr : Nat) : Byte := Memory.read s.mem addr

/-- `MemRead(addr, 2)`, used by fetch only: the byte at `addr` is the high one, and each byte's address is
masked on its own (20_memory.md R33). -/
def State.memReadWord (s : State) (addr : Nat) : Word :=
  wordOfBytes (s.memRead addr) (s.memRead (addr + 1))

/-- Store bytes from `addr` on. -/
def State.store (s : State) (addr : Nat) (bytes : List Byte) : State :=
  { s with mem := Memory.writeList s.mem addr bytes }

/-- Phase 3 of a step: the word at `PC` (40_step_cycle.md R68). -/
def State.fetchWord (s : State) : Word := s.memReadWord s.pc.toNat

/-- The state in which the next step fetches `w`: `w` stands at `PC`, high byte first, and the core is
neither waiting nor faulted, since such a core does not fetch (40_step_cycle.md R66, R67; log entry 9). -/
def State.placeWord (s : State) (w : Word) : State :=
  { s.store s.pc.toNat [Word.hiByte w, Word.loByte w] with wait := .running, fault := none }

/-! ## The call stack (10_state.md R18) -/

/-- Push a return address; `none` when all 16 entries are in use (41_flow.md R78). -/
def State.push? (s : State) (w : Word) : Option State :=
  if h : s.sp.val < 16 then
    some { s with stack := s.stack.set s.sp.val w h, sp := ⟨s.sp.val + 1, by omega⟩ }
  else none

/-- Pop a return address; `none` when no entry is in use. The entry keeps its value (41_flow.md R76). -/
def State.pop? (s : State) : Option (Word × State) :=
  if 0 < s.sp.val then
    some (s.stack[s.sp.val - 1]'(by omega), { s with sp := ⟨s.sp.val - 1, by omega⟩ })
  else none

/-! ## Taking a fault (60_exceptions.md R152, R158)

There is no vector, no saved-state area and no mode: the latch is set, `PC` has been advanced already, and
nothing else changes. No operation returns from a fault (R159); only reset clears the latch. -/

/-- `raise f`. -/
def State.raise (s : State) (f : CoreFault) : State := { s with fault := some f }

/-- What follows an unsupported word `w` fetched from `fa` (R151): under `halt` the fault is latched, under
`skip` it is reported for this step only and the run goes on at `fa + 2`. -/
def State.unsupported (s : State) (w fa : Word) : State :=
  match s.policy with
  | .halt => s.raise (.unsupportedOpcode w fa)
  | .skip => { s with report := some { word := w, pc := fa } }

/-! ## The random source (42_alu.md R108) -/

/-- The byte the next draw yields: an injected one while there are any, else a free value. -/
def Rng.next (r : Rng) : Byte := r.injected.getD r.drawn (Config.randByte r.seed r.drawn)

/-- One draw consumes one byte of the sequence (10_state.md R23). -/
def State.draw (s : State) : State := { s with rng := { s.rng with drawn := s.rng.drawn + 1 } }

/-! ## The framebuffer (10_state.md R19, 44_display.md) -/

/-- `fb[px, py]`. -/
def Framebuffer.pixel (fb : Framebuffer) (px : Fin 64) (py : Fin 32) : Bool := fb[py.val].getLsbD px.val

/-- `fb[px, py] <- fb[px, py] ^ 1`. -/
def Framebuffer.flip (fb : Framebuffer) (px : Fin 64) (py : Fin 32) : Framebuffer :=
  fb.set py.val (fb[py.val] ^^^ (1#64 <<< px.val))

/-- Every pixel off. -/
def Framebuffer.clear : Framebuffer := Vector.replicate 32 0

/-- XOR a list of lit sprite pixels onto the framebuffer, in order. The flag says whether some pixel was on
before its own XOR turned it off (44_display.md R127, R130). -/
def Framebuffer.plot (fb : Framebuffer) (hit : Bool) : List (Fin 64 × Fin 32) → Framebuffer × Bool
  | [] => (fb, hit)
  | (px, py) :: rest => Framebuffer.plot (Framebuffer.flip fb px py) (hit || Framebuffer.pixel fb px py) rest

/-- Replace the framebuffer. -/
def State.setFb (s : State) (fb : Framebuffer) : State := { s with fb := fb }

/-! ## The key matrix (10_state.md R20, 45_keys_timers.md R135) -/

/-- `k ≤ 15 and key[k]`: a value of 16 or more names no key and counts as not pressed (R136). -/
def State.keyDown (s : State) (k : Byte) : Bool := s.keys.toList.getD k.toNat false

/-- The number of the lowest-indexed pressed key, if any (R145). -/
def State.lowestKey (s : State) : Option Byte := (s.keys.toList.findIdx? id).map (BitVec.ofNat 8)

/-- Replace the key matrix; only the host does so (20_memory.md R42). -/
def State.setKeys (s : State) (keys : Vector Bool 16) : State := { s with keys := keys }

end Sys2Proof.Machine
end

