-- ==== Sys2Proof/Machine/Flags.lean ====
section
/-! DEFINITION. The machine's only flag, VF (10_state.md R12): how its values are computed and written. -/

namespace Sys2Proof.Machine

/-- The number of VF. -/
def vf : Nibble := 15

/-- A flag as a register holds it: 0 or 1 (10_state.md R12). -/
def flagByte (c : Bool) : Byte := if c then 1 else 0

/-- Carry of `a + b`: the unsigned sum exceeds 255 (42_alu.md R98). -/
def carryOf (a b : Byte) : Bool := decide (a.toNat + b.toNat > 255)

/-- No borrow in `a - b`: `a ≥ b` as unsigned bytes (42_alu.md R99). -/
def noBorrowOf (a b : Byte) : Bool := decide (a.toNat ≥ b.toNat)

/-- The bit a right shift by one moves out, bit 0 (42_alu.md R100). -/
def shiftedOutRight (a : Byte) : Bool := a.getLsbD 0

/-- The bit a left shift by one moves out, bit 7 (42_alu.md R102). -/
def shiftedOutLeft (a : Byte) : Bool := a.getLsbD 7

/-- Write the result to `V[x]`, then the flag to VF last, so that with `x = 15` the flag is what remains
(42_alu.md R91). -/
def State.setRegFlag (s : State) (x : Nibble) (result : Byte) (flag : Bool) : State :=
  (s.setReg x result).setReg vf (flagByte flag)

end Sys2Proof.Machine
end

