-- ==== Sys2Proof/Machine/Alu.lean ====
section
/-! DEFINITION. Register load, arithmetic, logic, shift and random (42_alu.md). Byte arithmetic wraps modulo
256 (R90). -/

namespace Sys2Proof.Machine

/-- `LD Vx,kk` (R92). -/
def execLdImm (x : Nibble) (kk : Byte) (s : State) : Result := .next (s.setReg x kk)

/-- `ADD Vx,kk` (R93): VF is not written as a flag. -/
def execAddImm (x : Nibble) (kk : Byte) (s : State) : Result := .next (s.setReg x (s.reg x + kk))

/-- `LD Vx,Vy` (R94). -/
def execLdReg (x y : Nibble) (s : State) : Result := .next (s.setReg x (s.reg y))

/-- `OR Vx,Vy` (R95): VF is unchanged (R105). -/
def execOrReg (x y : Nibble) (s : State) : Result := .next (s.setReg x (s.reg x ||| s.reg y))

/-- `AND Vx,Vy` (R96): VF is unchanged (R105). -/
def execAndReg (x y : Nibble) (s : State) : Result := .next (s.setReg x (s.reg x &&& s.reg y))

/-- `XOR Vx,Vy` (R97): VF is unchanged (R105). -/
def execXorReg (x y : Nibble) (s : State) : Result := .next (s.setReg x (s.reg x ^^^ s.reg y))

/-- `ADD Vx,Vy` (R98): VF is the carry, written last (R91). -/
def execAddReg (x y : Nibble) (s : State) : Result :=
  .next (s.setRegFlag x (s.reg x + s.reg y) (carryOf (s.reg x) (s.reg y)))

/-- `SUB Vx,Vy` (R99): VF is 1 when there is no borrow. -/
def execSub (x y : Nibble) (s : State) : Result :=
  .next (s.setRegFlag x (s.reg x - s.reg y) (noBorrowOf (s.reg x) (s.reg y)))

/-- `SHR Vx` (R100): in place; `y` is not used. -/
def execShr (x _y : Nibble) (s : State) : Result :=
  .next (s.setRegFlag x (s.reg x >>> 1) (shiftedOutRight (s.reg x)))

/-- `SUBN Vx,Vy` (R101): the operands of `SUB` reversed, the destination still `V[x]`. -/
def execSubn (x y : Nibble) (s : State) : Result :=
  .next (s.setRegFlag x (s.reg y - s.reg x) (noBorrowOf (s.reg y) (s.reg x)))

/-- `SHL Vx` (R102): in place; `y` is not used. -/
def execShl (x _y : Nibble) (s : State) : Result :=
  .next (s.setRegFlag x (s.reg x <<< 1) (shiftedOutLeft (s.reg x)))

/-- `RND Vx,kk` (R107): one draw per execution, also when `kk` is 0 (R108). -/
def execRnd (x : Nibble) (kk : Byte) (s : State) : Result := .next (s.draw.setReg x (s.rng.next &&& kk))

end Sys2Proof.Machine
end

