-- ==== Sys2Proof/Machine/Operands.lean ====
section
/-! DEFINITION. The operand forms: immediates, addresses formed from `I`, and the byte strings that the
instructions over memory move (30_encoding.md R53, 43_index_memory.md R110). -/

namespace Sys2Proof.Machine

/-- `zext_16(nnn)`: the address immediate as a 16-bit value (30_encoding.md R53). -/
def zextNnn (nnn : Imm12) : Word := nnn.setWidth 16

/-- `zext_16(V)`: a byte as a 16-bit value. -/
def zextByte (b : Byte) : Word := b.setWidth 16

/-- The base address of every data access: all 16 bits of `I`; the mask is applied at the access
(43_index_memory.md R110). -/
def State.base (s : State) : Nat := s.i.toNat

/-- The address of the glyph for a byte: the whole byte counts (43_index_memory.md R113). -/
def glyphAddr (b : Byte) : Word := BitVec.ofNat 16 (fontBase + 5 * b.toNat)

/-- The hundreds, tens and ones digits of a byte (43_index_memory.md R114). -/
def bcdDigits (b : Byte) : List Byte :=
  [BitVec.ofNat 8 (b.toNat / 100), BitVec.ofNat 8 (b.toNat / 10 % 10), BitVec.ofNat 8 (b.toNat % 10)]

/-- The contents of V0 to Vx, V0 first (43_index_memory.md R115). -/
def State.regsUpTo (s : State) (x : Nibble) : List Byte := s.v.toList.take (x.toNat + 1)

/-- The `n` bytes of a sprite, its top row first (44_display.md R125). -/
def State.spriteRows (s : State) (n : Nibble) : List Byte := Memory.readList s.mem s.base n.toNat

/-- The pixels one sprite row lights: bit `7 - c` is column offset `c`, and the column wraps at 64
(44_display.md R128, R129; log entry 7). -/
def spriteRowPixels (x0 : Nat) (py : Fin 32) (row : Byte) : List (Fin 64 × Fin 32) :=
  ((List.range 8).filter (fun c => row.getLsbD (7 - c))).map (fun c => (Fin.ofNat 64 (x0 + c), py))

/-- The pixels a sprite lights with its first row at `y`, in drawing order; rows wrap at 32
(44_display.md R127, R129). -/
def spritePixels (x0 y : Nat) : List Byte → List (Fin 64 × Fin 32)
  | [] => []
  | row :: rest => spriteRowPixels x0 (Fin.ofNat 32 y) row ++ spritePixels x0 (y + 1) rest

end Sys2Proof.Machine
end

