-- ==== Sys2Proof/Machine/Display.lean ====
section
/-! DEFINITION. The framebuffer instructions (44_display.md). -/

namespace Sys2Proof.Machine

/-- `CLS` (R126). -/
def execCls (_ign : Nibble) (s : State) : Result := .next (s.setFb Framebuffer.clear)

/-- What `DRW Vx,Vy,n` draws: the framebuffer after it, and whether there was a collision (R127, R130). -/
def State.drawn (s : State) (x y n : Nibble) : Framebuffer × Bool :=
  Framebuffer.plot s.fb false
    (spritePixels ((s.reg x).toNat % 64) ((s.reg y).toNat % 32) (s.spriteRows n))

/-- `DRW Vx,Vy,n` (R127): the coordinates are read before VF is written (R131), and VF is always written. -/
def execDrw (x y n : Nibble) (s : State) : Result :=
  .next ((s.setFb (s.drawn x y n).1).setReg vf (flagByte (s.drawn x y n).2))

end Sys2Proof.Machine
end

