-- ==== Sys2Proof/Machine/Flow.lean ====
section
/-! DEFINITION. The control-transfer instructions (41_flow.md). When a meaning runs, `PC` already holds the
fetch address + 2 (R75). -/

namespace Sys2Proof.Machine

/-- `RET` (R76): at `SP = 0` it raises `StackUnderflow` before anything is written (60_exceptions.md R154). -/
def execRet (_ign : Nibble) (s : State) : Result :=
  match s.pop? with
  | none => .next (s.raise .stackUnderflow)
  | some (w, t) => .next (t.setPc w)

/-- `JP nnn` (R77). -/
def execJp (nnn : Imm12) (s : State) : Result := .next (s.setPc (zextNnn nnn))

/-- `CALL nnn` (R78): it pushes the advanced `PC`; at `SP = 16` it raises `StackOverflow` before anything is
written (60_exceptions.md R153). -/
def execCall (nnn : Imm12) (s : State) : Result :=
  match s.push? s.pc with
  | none => .next (s.raise .stackOverflow)
  | some t => .next (t.setPc (zextNnn nnn))

/-- `SE Vx,kk` (R79). -/
def execSeImm (x : Nibble) (kk : Byte) (s : State) : Result := .next (s.skipIf (s.reg x == kk))

/-- `SNE Vx,kk` (R80). -/
def execSneImm (x : Nibble) (kk : Byte) (s : State) : Result := .next (s.skipIf (s.reg x != kk))

/-- `SE Vx,Vy` (R81). -/
def execSeReg (x y _ign : Nibble) (s : State) : Result := .next (s.skipIf (s.reg x == s.reg y))

/-- `SNE Vx,Vy` (R82). -/
def execSneReg (x y _ign : Nibble) (s : State) : Result := .next (s.skipIf (s.reg x != s.reg y))

/-- `JP V0,nnn` (R87): the sum is not masked. -/
def execJpV0 (nnn : Imm12) (s : State) : Result := .next (s.setPc (zextNnn nnn + zextByte (s.reg 0)))

end Sys2Proof.Machine
end

