-- ==== Sys2Proof/Machine/IndexMemory.lean ====
section
/-! DEFINITION. The index register and the instructions over memory (43_index_memory.md). None of those that
use `I` as a base changes it (R117). -/

namespace Sys2Proof.Machine

/-- `LD I,nnn` (R111). -/
def execLdI (nnn : Imm12) (s : State) : Result := .next (s.setI (zextNnn nnn))

/-- `ADD I,Vx` (R112): a 16-bit sum, not masked, and no flag. -/
def execAddI (x : Nibble) (s : State) : Result := .next (s.setI (s.i + zextByte (s.reg x)))

/-- `LD F,Vx` (R113). -/
def execLdF (x : Nibble) (s : State) : Result := .next (s.setI (glyphAddr (s.reg x)))

/-- `LD B,Vx` (R114): hundreds, tens and ones at `I`, `I + 1`, `I + 2`. -/
def execLdB (x : Nibble) (s : State) : Result := .next (s.store s.base (bcdDigits (s.reg x)))

/-- `LD [I],Vx` (R115): V0 to Vx, ascending. -/
def execLdMemVx (x : Nibble) (s : State) : Result := .next (s.store s.base (s.regsUpTo x))

/-- `LD Vx,[I]` (R116): V0 to Vx, ascending. -/
def execLdVxMem (x : Nibble) (s : State) : Result :=
  .next (s.setRegs (writeRegs s.v 0 (Memory.readList s.mem s.base (x.toNat + 1))))

end Sys2Proof.Machine
end

