-- ==== Sys2Proof/Machine/KeysTimers.lean ====
section
/-! DEFINITION. The key and timer instructions and the key-wait state machine (45_keys_timers.md). -/

namespace Sys2Proof.Machine

/-- `SKP Vx` (R136). -/
def execSkp (x : Nibble) (s : State) : Result := .next (s.skipIf (s.keyDown (s.reg x)))

/-- `SKNP Vx` (R137): the exact complement of `SKP`. -/
def execSknp (x : Nibble) (s : State) : Result := .next (s.skipIf (!s.keyDown (s.reg x)))

/-- `LD Vx,DT` (R138). -/
def execLdVxDt (x : Nibble) (s : State) : Result := .next (s.setReg x s.dt)

/-- `LD DT,Vx` (R139). -/
def execLdDtVx (x : Nibble) (s : State) : Result := .next (s.setDt (s.reg x))

/-- `LD ST,Vx` (R140). -/
def execLdStVx (x : Nibble) (s : State) : Result := .next (s.setSt (s.reg x))

/-- `LD Vx,K` (R141): with a key down it completes at once; with none it enters the wait and undoes the
advance, so that `PC` is its own address. -/
def execLdVxK (x : Nibble) (s : State) : Result :=
  match s.lowestKey with
  | some k => .next (s.setReg x k)
  | none => .next ((s.setWait (.awaitingKey x)).setPc (s.pc - 2))

/-- The step of a waiting core (R143): nothing while no key is down; else the key is stored, the marker
cleared and `PC` advanced past the `LD Vx,K` word, and nothing else is executed (R144). -/
def waitingStep (r : Nibble) (s : State) : State :=
  match s.lowestKey with
  | some k => ((s.setReg r k).setWait .running).setPc (s.pc + 2)
  | none => s

end Sys2Proof.Machine
end

