-- ==== Sys2Proof/Machine/Cycle.lean ====
section
/-! DEFINITION. The step cycle (40_step_cycle.md R65): everything `step` does around the meanings. -/

namespace Sys2Proof.Machine

/-- Phases 3 to 7 (R65): fetch, advance, decode, and either the handler or what follows an unsupported word
(R70). The word is fetched, and its address kept, before the advance. -/
def fetchAndExecute (s : State) : Result :=
  match decodeWord s.fetchWord with
  | some i => exec i s.advance
  | none => .next (s.advance.unsupported s.fetchWord s.pc)

/-- One `step()` (R65): a faulted core does nothing (R66), a waiting core only looks at the keys (R67). -/
def cycle (s : State) : Result :=
  match s.fault with
  | some _ => .next s
  | none =>
    match s.wait with
    | .awaitingKey r => .next (waitingStep r s)
    | .running => fetchAndExecute s

end Sys2Proof.Machine
end

