-- ==== Sys2Proof/Machine/HostMoves.lean ====
section
/-! DEFINITION. What the host does to the machine between steps: ticks, key writes, reset, image load and
seeding (60_exceptions.md R163, 20_memory.md R42 and R44, 70_reset_and_hazards.md R175 and R177), the runs
these make, and the outputs the host reads (10_state.md R28). -/

namespace Sys2Proof.Machine

/-- One timer, one tick: down by 1, saturating at 0 (60_exceptions.md R163). -/
def countDown (b : Byte) : Byte := if b = 0 then 0 else b - 1

/-- `tick_timers()` (60_exceptions.md R163): it acts whether the core runs, waits or is faulted (R164). -/
def State.tickTimers (s : State) : State := { s with dt := countDown s.dt, st := countDown s.st }

/-- The event `reset` (70_reset_and_hazards.md R175): every piece of state to its reset value. What the host
has set up outside the core stays: the policy, and the generator, put back to the start of its sequence
(10_state.md R23; log entry 16). -/
def State.hostReset (s : State) : State :=
  { State.reset with policy := s.policy, rng := { s.rng with drawn := 0 } }

/-- Seed the generator, or inject the bytes it is to yield (70_reset_and_hazards.md R177). -/
def State.seedRng (s : State) (seed : Nat) (bytes : List Byte) : State :=
  { s with rng := { seed := seed, injected := bytes, drawn := 0 } }

/-- The loader's one error (60_exceptions.md R155). -/
inductive LoadError where
  /-- the image is longer than 3584 bytes; nothing is written and no fault is latched -/
  | imageTooLarge
  deriving DecidableEq, Repr

/-- `load_image(bytes)` (20_memory.md R44). -/
def State.loadImage (s : State) (bytes : List Byte) : Except LoadError State :=
  if bytes.length > Config.imageMax then .error .imageTooLarge
  else .ok (s.store Config.progBase bytes)

/-- What the host does before the first step, in order: reset, seed, load, set the keys
(70_reset_and_hazards.md R177). The policy is chosen once, for the run (00_scope.md R6). -/
def boot (policy : Config.UnsupportedPolicy) (seed : Nat) (bytes image : List Byte)
    (keys : Vector Bool 16) : Except LoadError State :=
  match (({ State.reset with policy := policy } : State).seedRng seed bytes).loadImage image with
  | .ok s => .ok (s.setKeys keys)
  | .error e => .error e

/-- The moves of a run: each is atomic, and they never overlap (70_reset_and_hazards.md R180;
log entry 14). An image is
loaded at boot only (20_memory.md R44; log entry 10). -/
inductive Move where
  /-- `step()` -/
  | step
  /-- `tick_timers()` -/
  | tickTimers
  /-- the input collaborator writes the key matrix (20_memory.md R42) -/
  | setKeys (keys : Vector Bool 16)
  deriving DecidableEq, Repr

/-- One move. -/
def move : Move → State → Result
  | .step, s => Machine.step s
  | .tickTimers, s => .next s.tickTimers
  | .setKeys keys, s => .next (s.setKeys keys)

/-- Moves in sequence, freely interleaved (60_exceptions.md R164). -/
def runMoves : List Move → State → Result
  | [], s => .next s
  | m :: rest, s =>
    match move m s with
    | .next t => runMoves rest t
    | .fault f => .fault f
    | .refused r => .refused r

/-- The public status (10_state.md R28). -/
inductive Status where
  | running
  | awaitingKey (r : Nibble)
  | faulted (f : CoreFault)
  deriving DecidableEq, Repr

/-- The public status of a state: a latched fault comes before the key-wait marker (10_state.md R28). -/
def State.status (s : State) : Status :=
  match s.fault with
  | some f => .faulted f
  | none =>
    match s.wait with
    | .running => .running
    | .awaitingKey r => .awaitingKey r

/-- The sound signal, `ST > 0` (10_state.md R28). -/
def State.soundOn (s : State) : Bool := decide (s.st.toNat > 0)

end Sys2Proof.Machine
end

