-- ==== Sys2Proof/Safety.lean ====
section
/-! DEFINITION. The terms the claims use: what a change leaves alone, which instructions may write what, the
coherence of a state, and runs. -/

namespace Sys2Proof.Machine

/-- The pieces of the state a frame speaks of, one for each field of `State`. -/
inductive Piece where
  | mem | v | i | pc | dt | st | stack | sp | fb | keys | wait | fault | rng | policy | report
  deriving DecidableEq, Repr

/-- A piece is the same in two states. Memory is the same when every byte reads the same. -/
def SamePiece (s t : State) : Piece → Prop
  | .mem => ∀ a, t.memRead a = s.memRead a
  | .v => ∀ r, t.reg r = s.reg r
  | .i => t.i = s.i
  | .pc => t.pc = s.pc
  | .dt => t.dt = s.dt
  | .st => t.st = s.st
  | .stack => t.stack = s.stack
  | .sp => t.sp = s.sp
  | .fb => ∀ px py, t.fb.pixel px py = s.fb.pixel px py
  | .keys => t.keys = s.keys
  | .wait => t.wait = s.wait
  | .fault => t.fault = s.fault
  | .rng => t.rng = s.rng
  | .policy => t.policy = s.policy
  | .report => t.report = s.report

/-- Every piece of the state but those listed is the same in `t` as in `s`. -/
def KeepsAllBut (ps : List Piece) (s t : State) : Prop := ∀ p, p ∉ ps → SamePiece s t p

/-- Every general register but those of which `w` holds is the same in `t` as in `s`. -/
def KeepsRegsBut (w : Nibble → Prop) (s t : State) : Prop := ∀ r, ¬ w r → t.reg r = s.reg r

/-- Every byte of memory but those at the `n` addresses from `addr` on, each masked, reads the same in `t` as
in `s`. -/
def KeepsMemBut (addr n : Nat) (s t : State) : Prop :=
  ∀ a, (∀ k, k < n → maskAddr a ≠ maskAddr (addr + k)) → t.memRead a = s.memRead a

/-- The six instructions that write VF as a flag (10_state.md R12). -/
def WritesFlag : Instr → Prop
  | .addReg _ _ => True
  | .sub _ _ => True
  | .subn _ _ => True
  | .shr _ _ => True
  | .shl _ _ => True
  | .drw _ _ _ => True
  | _ => False

/-- Register `r` is a destination that the operands of `i` name (42_alu.md, 43_index_memory.md,
45_keys_timers.md); VF as a flag is not among them. -/
def NamesDest (r : Nibble) : Instr → Prop
  | .ldImm x _ => r = x
  | .addImm x _ => r = x
  | .ldReg x _ => r = x
  | .orReg x _ => r = x
  | .andReg x _ => r = x
  | .xorReg x _ => r = x
  | .addReg x _ => r = x
  | .sub x _ => r = x
  | .shr x _ => r = x
  | .subn x _ => r = x
  | .shl x _ => r = x
  | .rnd x _ => r = x
  | .ldVxDt x => r = x
  | .ldVxK x => r = x
  | .ldVxMem x => r ≤ x
  | _ => False

/-- The instructions whose handler may write `PC` (10_state.md R15). -/
def WritesPc : Instr → Prop
  | .ret _ => True
  | .jp _ => True
  | .call _ => True
  | .jpV0 _ => True
  | .seImm _ _ => True
  | .sneImm _ _ => True
  | .seReg _ _ _ => True
  | .sneReg _ _ _ => True
  | .skp _ => True
  | .sknp _ => True
  | .ldVxK _ => True
  | _ => False

/-- The instructions that store to memory (20_memory.md R30). -/
def StoresMem : Instr → Prop
  | .ldB _ => True
  | .ldMemVx _ => True
  | _ => False

/-- The instructions that write `I` (10_state.md R14). -/
def WritesI : Instr → Prop
  | .ldI _ => True
  | .addI _ => True
  | .ldF _ => True
  | _ => False

/-- The instructions that draw (10_state.md R19). -/
def WritesFb : Instr → Prop
  | .cls _ => True
  | .drw _ _ _ => True
  | _ => False

/-- The instructions that use the call stack, which are also the ones that can raise a fault
(40_step_cycle.md R71). -/
def UsesStack : Instr → Prop
  | .call _ => True
  | .ret _ => True
  | _ => False

/-- What a latched fault says of the state: it identifies the word that raised it (60_exceptions.md R158), and
the stack faults stand at the limits of `SP` (R153, R154). -/
def FaultCoherent (s : State) : Prop :=
  match s.fault with
  | none => True
  | some (.unsupportedOpcode w fa) =>
    s.wait = .running ∧ s.pc = fa + 2 ∧ s.memReadWord fa.toNat = w ∧ decodeWord w = none
  | some .stackOverflow => s.wait = .running ∧ s.sp.val = 16
  | some .stackUnderflow => s.wait = .running ∧ s.sp.val = 0

/-- While the core waits for register `r`, `PC` holds the address of a `LD Vx,K` that names `r`
(10_state.md R21, 45_keys_timers.md R144). -/
def WaitCoherent (s : State) : Prop :=
  ∀ r, s.wait = .awaitingKey r → decodeWord s.fetchWord = some (.ldVxK r)

/-- The invariant of the machine: memory is in its canonical form, a waiting core stands at the instruction it
waits in, and a latched fault tells the truth. -/
structure Coherent (s : State) : Prop where
  memWf : Memory.wf s.mem = true
  wait : WaitCoherent s
  fault : FaultCoherent s

/-- A state that a run can reach: boot with some image, keys, policy and random source, then moves in any
order (70_reset_and_hazards.md R177, 60_exceptions.md R164). -/
def Reachable (s : State) : Prop :=
  ∃ policy seed bytes image keys moves s₀,
    boot policy seed bytes image keys = .ok s₀ ∧ runMoves moves s₀ = .next s

/-- Handlers one after the other, each after its advance, as consecutive steps run them
(40_step_cycle.md R65). -/
def runHandlers : List Instr → State → Result
  | [], s => .next s
  | i :: rest, s =>
    match exec i s.advance with
    | .next t => runHandlers rest t
    | .fault f => .fault f
    | .refused r => .refused r

/-- The sprite of `DRW Vx,Vy,n` lights the pixel `(px, py)`: some row and column of it is set and lands there
(44_display.md R127 to R129). -/
def SpriteLights (s : State) (x y n : Nibble) (px : Fin 64) (py : Fin 32) : Prop :=
  ∃ r c, r < n.toNat ∧ c < 8 ∧ (s.memRead (s.i.toNat + r)).getLsbD (7 - c) = true ∧
    px.val = ((s.reg x).toNat % 64 + c) % 64 ∧ py.val = ((s.reg y).toNat % 32 + r) % 32

/-- How many pixels differ between two framebuffers. -/
def pixelsChanged (a b : Framebuffer) : Nat :=
  (Finset.univ.filter (fun p : Fin 64 × Fin 32 => a.pixel p.1 p.2 ≠ b.pixel p.1 p.2)).card

/-- How many bits of a byte are 1. -/
def bitsSet (b : Byte) : Nat := ((List.range 8).filter (fun c => b.getLsbD c)).length

end Sys2Proof.Machine
end

