-- ==== Sys2Proof/Certificates/Slice0/Obligations.lean ====
section
/-! DEFINITION. The statements for the provers. Where a docstring names a decision D, a conflict C or a passage
G, the clause rests on that choice of the spec (92_eei_decisions.md, 90_conflicts.md,
93_implementation_defined.md); where it names a log entry, on the model's own. -/

open Sys2Proof Sys2Proof.Machine

/-- The words 00E0, 6005, 600A, 3005, 1200, 8124, 812E, D015, E19E, F20A, F533 and F265 decode to CLS, LD V0,05,
LD V0,0A, SE V0,05, JP 200, ADD V1,V2, SHL V1 (y = 2), DRW V0,V1,5, SKP V1, LD V2,K, LD B,V5 and LD V2,[I];
the words 0000, 0123, 8128, E19F and F130 are unsupported. The opcode numbers are the spec's R55 and R56,
marked there as general knowledge (93_implementation_defined.md G1; log entry 5). (30_encoding.md section 3,
95_test_vectors.md section 2.1) -/
def Obligations.SampleWordsDecode : Prop :=
  decodeWord 0x00E0 = some (.cls 0) ∧ decodeWord 0x6005 = some (.ldImm 0 0x05) ∧
  decodeWord 0x600A = some (.ldImm 0 0x0A) ∧ decodeWord 0x3005 = some (.seImm 0 0x05) ∧
  decodeWord 0x1200 = some (.jp 0x200) ∧ decodeWord 0x8124 = some (.addReg 1 2) ∧
  decodeWord 0x812E = some (.shl 1 2) ∧ decodeWord 0xD015 = some (.drw 0 1 5) ∧
  decodeWord 0xE19E = some (.skp 1) ∧ decodeWord 0xF20A = some (.ldVxK 2) ∧
  decodeWord 0xF533 = some (.ldB 5) ∧ decodeWord 0xF265 = some (.ldVxMem 2) ∧
  decodeWord 0x0000 = none ∧ decodeWord 0x0123 = none ∧ decodeWord 0x8128 = none ∧
  decodeWord 0xE19F = none ∧ decodeWord 0xF130 = none

/-- For every instruction i, with every operand at every value, the ignored nibbles included, decodeWord (encode
i) is i. No bit of an encoding is dropped. (30_encoding.md section 1, 30_encoding.md section 2,
30_encoding.md section 3) -/
def Obligations.DecodeOfEncodeIsTheInstruction : Prop :=
  ∀ i, decodeWord (encode i) = some i

/-- For every word w and instruction i, if w decodes to i then encode i is w: decoding loses no bit, so two
different words never decode to the same term of Instr. That each word has a term of its own is the model's
choice, not the spec's: Instr keeps as operands the nibble the decoder ignores and the y field of the shifts
(log entry 15, DESIGN CHOICE). By the spec's R57 sixteen words are the one instruction CLS; in the model
they are sixteen terms, which IgnoredFieldsHaveNoEffect says do the same. (30_encoding.md section 1,
30_encoding.md section 2) -/
def Obligations.EncodeOfDecodeIsTheWord : Prop :=
  ∀ w i, decodeWord w = some i → encode i = w

/-- A word w satisfies w & mask = match for the row of an instruction i exactly when w decodes to some
instruction of the same row; so the rows are disjoint. (30_encoding.md section 3) -/
def Obligations.TableRowSelectsTheInstruction : Prop :=
  ∀ (w : Word) (i : Instr), w &&& i.row.2 = i.row.1 ↔ ∃ j, decodeWord w = some j ∧ j.row = i.row

/-- decodeWord w is none exactly when op is 0 and kk is neither E0 nor EE, or op is 8 and n is 8, 9, A, B, C, D
or F, or op is E and kk is neither 9E nor A1, or op is F and kk is none of 07, 0A, 15, 18, 1E, 29, 33, 55,
65. The key values are marked by the spec as general knowledge (93_implementation_defined.md G1; log entry
5). (30_encoding.md section 2) -/
def Obligations.UnsupportedWordsAreExactlyThese : Prop :=
  ∀ w, decodeWord w = none ↔
    (Word.op w = 0x0 ∧ Word.kk w ≠ 0xE0 ∧ Word.kk w ≠ 0xEE) ∨
    (Word.op w = 0x8 ∧ (Word.n w = 0x8 ∨ Word.n w = 0x9 ∨ Word.n w = 0xA ∨ Word.n w = 0xB ∨
      Word.n w = 0xC ∨ Word.n w = 0xD ∨ Word.n w = 0xF)) ∨
    (Word.op w = 0xE ∧ Word.kk w ≠ 0x9E ∧ Word.kk w ≠ 0xA1) ∨
    (Word.op w = 0xF ∧ Word.kk w ≠ 0x07 ∧ Word.kk w ≠ 0x0A ∧ Word.kk w ≠ 0x15 ∧ Word.kk w ≠ 0x18 ∧
      Word.kk w ≠ 0x1E ∧ Word.kk w ≠ 0x29 ∧ Word.kk w ≠ 0x33 ∧ Word.kk w ≠ 0x55 ∧ Word.kk w ≠ 0x65)

/-- For every instruction i and every list rest of bytes, decoding the two bytes of encode i, bits 15:8 first
and bits 7:0 second, followed by rest gives i and rest; fewer than two bytes are refused as truncated.
(30_encoding.md section 1) -/
def Obligations.BytesDecodeHighByteFirst : Prop :=
  (∀ i rest, decode ((encode i).extractLsb' 8 8 :: (encode i).extractLsb' 0 8 :: rest) = .ok i rest) ∧
  decode [] = .truncated ∧ ∀ b, decode [b] = .truncated

/-- CLS, RET, SE Vx,Vy and SNE Vx,Vy do the same whatever the ignored nibble, and SHR Vx and SHL Vx do the same
whatever y. That the other spellings execute is the spec's D21, and that the shifts ignore Vy is its D6.
(30_encoding.md section 2, 92_eei_decisions.md D21, 92_eei_decisions.md D6) -/
def Obligations.IgnoredFieldsHaveNoEffect : Prop :=
  ∀ (a b x y : Nibble) (s : State),
    exec (.cls a) s = exec (.cls b) s ∧ exec (.ret a) s = exec (.ret b) s ∧
    exec (.seReg x y a) s = exec (.seReg x y b) s ∧ exec (.sneReg x y a) s = exec (.sneReg x y b) s ∧
    exec (.shr x a) s = exec (.shr x b) s ∧ exec (.shl x a) s = exec (.shl x b) s

/-- When the core is neither faulted nor waiting and the two bytes at PC and PC + 1 (each address masked), high
byte first, decode to an instruction i, in the canonical spelling or not, then step is exec of i at the
state whose PC is advanced by 2 modulo 65536 and whose report of the step before is cleared (the report is
the model's own field, log entry 4). (40_step_cycle.md section 1) -/
def Obligations.StepRunsTheDecodedInstruction : Prop :=
  ∀ (s : State) (i : Instr), s.fault = none → s.wait = .running →
    decodeWord (wordOfBytes (s.memRead s.pc.toNat) (s.memRead (s.pc.toNat + 1))) = some i →
    step s = exec i { s with pc := s.pc + 2, report := none }

/-- If the fault latch is set, step changes no state at all, whatever the key-wait marker; and tick_timers still
gives each timer its value less 1, saturating at 0, and leaves the latch. The latch is the spec's decision
D14. (40_step_cycle.md section 1, 60_exceptions.md section 5, 92_eei_decisions.md D14) -/
def Obligations.FaultedCoreIgnoresStep : Prop :=
  ∀ (s : State) (f : CoreFault), s.fault = some f →
    step s = .next s ∧ s.tickTimers.fault = some f ∧
    s.tickTimers.dt.toNat = s.dt.toNat - 1 ∧ s.tickTimers.st.toNat = s.st.toNat - 1

/-- In a core that waits for register r and is not faulted: with no key down, step changes no state at all; with
key k down and no lower key down, step answers a state in which V[r] is k, the marker is RUNNING, PC is
advanced by 2, and nothing else has changed. And a running core whose fetched instruction is LD Vx,K, with
no key down, keeps its PC across repeated steps; once the host has made key k the lowest pressed key,
exactly one step stores k in V[x] and leaves PC 2 past the instruction. That the running LD Vx,K enters
AWAITING_KEY(x) with PC at its own address is R141 and R142, and that the resolving step is a complete step
is R144; these rules hold more than this statement says, so it cites them by their section. (R143, R145,
45_keys_timers.md section 4) -/
def Obligations.WaitingStepHoldsOrResolves : Prop :=
  (∀ (s : State) (r : Nibble), s.fault = none → s.wait = .awaitingKey r →
    ((∀ j, (h : j < 16) → s.keys[j] = false) → step s = .next s) ∧
    (∀ k, (hk : k < 16) → s.keys[k] = true → (∀ j, (h : j < k) → s.keys[j] = false) →
      ∃ t, step s = .next t ∧ t.reg r = BitVec.ofNat 8 k ∧ t.wait = .running ∧ t.pc = s.pc + 2 ∧
        KeepsRegsBut (· = r) s t ∧ KeepsAllBut [.v, .wait, .pc] s t)) ∧
  (∀ (s : State) (x : Nibble), s.fault = none → s.wait = .running →
    decodeWord s.fetchWord = some (.ldVxK x) → (∀ j, (h : j < 16) → s.keys[j] = false) →
    ∃ t, step s = .next t ∧ t.pc = s.pc ∧ t.wait = .awaitingKey x ∧ step t = .next t ∧
      ∀ (keys : Vector Bool 16) (k : Nat), (hk : k < 16) → keys[k] = true →
        (∀ j, (h : j < k) → keys[j] = false) →
        ∃ u, step (t.setKeys keys) = .next u ∧ u.reg x = BitVec.ofNat 8 k ∧ u.wait = .running ∧
          u.pc = s.pc + 2)

/-- When a running, unfaulted core with the policy halt fetches a word that decodes to nothing, step answers a
state whose latch is UnsupportedOpcode of the word and the fetch address, whose PC is the fetch address plus
2, and in which nothing else has changed but the model's own report, cleared (log entry 4); every further
step changes nothing. The latch and the policy are the spec's decision D14, the recorded address its D15.
(60_exceptions.md section 1, 60_exceptions.md section 2, 92_eei_decisions.md D14, 92_eei_decisions.md D15) -/
def Obligations.UnsupportedWordHaltsTheCore : Prop :=
  ∀ s : State, s.fault = none → s.wait = .running → s.policy = .halt → decodeWord s.fetchWord = none →
    ∃ t, step s = .next t ∧ t.fault = some (.unsupportedOpcode s.fetchWord s.pc) ∧ t.pc = s.pc + 2 ∧
      t.report = none ∧ KeepsAllBut [.fault, .pc, .report] s t ∧ step t = .next t

/-- When a running, unfaulted core with the policy skip fetches a word that decodes to nothing, step answers a
state whose report is the word and the fetch address (the model's own field, log entry 4), whose PC is the
fetch address plus 2, in which nothing else has changed and no fault is latched. The policy is the parameter
of the spec's decision D14. (60_exceptions.md section 1, 92_eei_decisions.md D14) -/
def Obligations.UnsupportedWordIsSkippedUnderSkip : Prop :=
  ∀ s : State, s.fault = none → s.wait = .running → s.policy = .skip → decodeWord s.fetchWord = none →
    ∃ t, step s = .next t ∧ t.report = some { word := s.fetchWord, pc := s.pc } ∧ t.pc = s.pc + 2 ∧
      t.fault = none ∧ KeepsAllBut [.pc, .report] s t

/-- For every state, step answers a next state; and for every instruction and every state, exec answers a next
state. No access can fail and no step blocks. That the spec's error conditions answer a next state with the
latch set, and so are no stops, is the model's deduction (log entry 13, DEDUCED) from the states that R152
and R158 describe; the latch itself is the spec's decision D14. (20_memory.md section 1, 40_step_cycle.md
section 2, 60_exceptions.md section 1, 60_exceptions.md section 2, 92_eei_decisions.md D14) -/
def Obligations.EveryStepAnswersAState : Prop :=
  (∀ s, ∃ t, step s = .next t) ∧ (∀ i s, ∃ t, exec i s = .next t)

/-- If a state is coherent (its memory in canonical form; while it waits for register r, the word at PC decodes
to LD Vx,K with x = r; a latched UnsupportedOpcode names the unsupported word that memory holds at the
address it records, with PC 2 past it; StackOverflow is latched only at SP = 16 and StackUnderflow only at
SP = 0, and a faulted core is not waiting) and step answers t, then t is coherent. (10_state.md section 10,
45_keys_timers.md section 4, 60_exceptions.md section 2) -/
def Obligations.StepKeepsCoherent : Prop :=
  ∀ s t, Coherent s → step s = .next t → Coherent t

/-- The invariant that every step keeps holds of State.reset. (10_state.md section 14) -/
def Obligations.ResetStateIsCoherent : Prop :=
  Coherent State.reset

/-- Take any image that loads, any keys, policy and random source at boot, and any sequence of steps, ticks and
key writes: the state reached is coherent. It is the run form of StepKeepsCoherent and ResetStateIsCoherent.
That an image is loaded at boot only is the model's choice (log entry 10, DESIGN CHOICE) over the spec's
decision D26, and that the host's moves are atomic is the model's deduction (log entry 14, DEDUCED) over its
D25. (70_reset_and_hazards.md section 2, 60_exceptions.md section 5, 45_keys_timers.md section 4,
92_eei_decisions.md D25, 92_eei_decisions.md D26) -/
def Obligations.ReachableStatesAreCoherent : Prop :=
  ∀ s, Reachable s → Coherent s

/-- After the event reset, from any state, and in State.reset: V0 to VF, I, DT and ST are 0, PC is 0x200, SP is
0, every stack entry is 0, every pixel is off, every key is false, the marker is RUNNING, no fault is
latched, the generator is at the start of its sequence, the bytes at 0x050 + k are the font bytes FONT[k]
and every other byte of memory is 0. The values of memory outside the font, SP, the stack, the screen, the
keys and the marker are the spec's decision D18, the latch its D14, the font bytes its G2 (log entry 6).
(10_state.md section 14, 70_reset_and_hazards.md section 1, 92_eei_decisions.md D18) -/
def Obligations.ResetLeavesTheSpecsValues : Prop :=
  ∀ s t : State, (t = State.reset ∨ t = s.hostReset) →
    (∀ r, t.reg r = 0) ∧ t.i = 0 ∧ t.pc = 0x200 ∧ t.dt = 0 ∧ t.st = 0 ∧ t.sp.val = 0 ∧
    (∀ k, (h : k < 16) → t.stack[k] = 0) ∧ (∀ px py, t.fb.pixel px py = false) ∧
    (∀ k, (h : k < 16) → t.keys[k] = false) ∧ t.wait = .running ∧ t.fault = none ∧ t.rng.drawn = 0 ∧
    (∀ k, (h : k < 80) → t.memRead (0x050 + k) = font.getD k 0) ∧
    (∀ a, a < 0x1000 → (a < 0x050 ∨ 0x0A0 ≤ a) → t.memRead a = 0)

/-- For a state whose memory is in canonical form: an image of more than 3584 bytes is refused with
ImageTooLarge; an image of at most 3584 bytes is loaded, byte k at 0x200 + k, and every other byte of memory
and every other piece of state is unchanged. That a load has this meaning only before the first step is the
spec's D26 (log entry 10). (20_memory.md section 7, 92_eei_decisions.md D26) -/
def Obligations.ImageLoadsAtProgBase : Prop :=
  ∀ (s : State) (bytes : List Byte), Memory.wf s.mem = true →
    (3584 < bytes.length → s.loadImage bytes = .error .imageTooLarge) ∧
    (bytes.length ≤ 3584 → ∃ t, s.loadImage bytes = .ok t ∧
      (∀ k, (h : k < bytes.length) → t.memRead (0x200 + k) = bytes[k]) ∧
      KeepsMemBut 0x200 bytes.length s t ∧ KeepsAllBut [.mem] s t)

/-- For every state, running, waiting or faulted, tick_timers gives DT and ST their values less 1, or 0 where
they were 0, and leaves every other piece of state unchanged. (R163, R146) -/
def Obligations.TickCountsBothTimersDown : Prop :=
  ∀ s : State,
    s.tickTimers.dt.toNat = s.dt.toNat - 1 ∧ s.tickTimers.st.toNat = s.st.toNat - 1 ∧
    KeepsAllBut [.dt, .st] s s.tickTimers

/-- The status is FAULTED(f) exactly when fault f is latched, whatever the marker; without a fault it is RUNNING
or AWAITING_KEY(r) as the marker is; the sound signal is on exactly when ST is above 0. The FAULTED value is
the spec's D14. (10_state.md section 17, 92_eei_decisions.md D14) -/
def Obligations.StatusAndSoundFollowTheState : Prop :=
  ∀ s : State,
    (∀ f, s.status = .faulted f ↔ s.fault = some f) ∧
    (s.status = .running ↔ s.fault = none ∧ s.wait = .running) ∧
    (∀ r, s.status = .awaitingKey r ↔ s.fault = none ∧ s.wait = .awaitingKey r) ∧
    (s.soundOn = true ↔ s.st ≠ 0)

/-- If step takes s to t, the key matrix and the policy are unchanged; and if DT differs the step ran LD DT,Vx,
if ST differs it ran LD ST,Vx. The policy is the model's own field (log entry 3). (40_step_cycle.md section
2, 10_state.md section 15) -/
def Obligations.StepNeverTouchesTheHostsInputs : Prop :=
  ∀ s t : State, step s = .next t →
    t.keys = s.keys ∧ t.policy = s.policy ∧
    (t.dt ≠ s.dt → ∃ x, decodeWord s.fetchWord = some (.ldDtVx x)) ∧
    (t.st ≠ s.st → ∃ x, decodeWord s.fetchWord = some (.ldStVx x))

/-- For every state and every address, the byte read is the byte at the address masked with 0x0FFF; a read is a
function of the state, so it has no side effect and always succeeds. (R31) -/
def Obligations.MemReadMasksItsAddress : Prop :=
  ∀ (s : State) (a : Nat), s.memRead a = Memory.cell s.mem (a &&& 0x0FFF)

/-- For memory in canonical form, after writing b at a, the memory is in canonical form, every address with the
same low 12 bits as a reads b, and every other address reads as before. That no address is protected is the
spec's D20. (20_memory.md section 1, 20_memory.md section 5, 92_eei_decisions.md D20) -/
def Obligations.WriteChangesExactlyOneCell : Prop :=
  ∀ (m : Memory) (a : Nat) (b : Byte), Memory.wf m = true →
    Memory.wf (Memory.write m a b) = true ∧
    ∀ c, (c &&& 0x0FFF = a &&& 0x0FFF → Memory.read (Memory.write m a b) c = b) ∧
      (c &&& 0x0FFF ≠ a &&& 0x0FFF → Memory.read (Memory.write m a b) c = Memory.read m c)

/-- If exec of any other instruction takes s to t, every pixel is unchanged. (10_state.md section 8,
44_display.md opening) -/
def Obligations.OnlyClsAndDrwDraw : Prop :=
  ∀ i s t, exec i s = .next t → ¬ WritesFb i → ∀ px py, t.fb.pixel px py = s.fb.pixel px py

/-- If exec of any other instruction takes s to t, every byte reads as before; and if a step changes some byte,
the word it fetched decodes to LD B,Vx or LD [I],Vx. (20_memory.md section 1, 10_state.md section 15) -/
def Obligations.OnlyStoresWriteMemory : Prop :=
  (∀ i s t, exec i s = .next t → ¬ StoresMem i → ∀ a, t.memRead a = s.memRead a) ∧
  (∀ s t a, step s = .next t → t.memRead a ≠ s.memRead a →
    ∃ i, decodeWord s.fetchWord = some i ∧ StoresMem i)

/-- If exec of any other instruction takes s to t, I is unchanged; in particular LD B,Vx, LD [I],Vx, LD Vx,[I]
and DRW leave I alone, which is the spec's decision D10. (10_state.md section 4, 43_index_memory.md section
1, 92_eei_decisions.md D10) -/
def Obligations.OnlyThreeInstructionsWriteI : Prop :=
  ∀ i s t, exec i s = .next t → ¬ WritesI i → t.i = s.i

/-- If exec of RND takes s to t, the position in the random sequence advances by 1 and the rest of the source is
unchanged; if exec of any other instruction does, the source is unchanged. The sequence view is the spec's
D24. (10_state.md section 12, 92_eei_decisions.md D24) -/
def Obligations.OnlyRndDrawsAByte : Prop :=
  ∀ i s t, exec i s = .next t →
    ((∃ x kk, i = .rnd x kk) → t.rng = { s.rng with drawn := s.rng.drawn + 1 }) ∧
    ((¬ ∃ x kk, i = .rnd x kk) → t.rng = s.rng)

/-- If exec of an instruction other than CALL and RET takes s to t, the stack, SP and the fault latch are
unchanged; if the instruction is not LD Vx,K, the key-wait marker is unchanged. (10_state.md section 15,
40_step_cycle.md section 1) -/
def Obligations.OnlyCallAndRetUseTheStack : Prop :=
  ∀ i s t, exec i s = .next t →
    (¬ UsesStack i → t.stack = s.stack ∧ t.sp = s.sp ∧ t.fault = s.fault) ∧
    ((∀ x, i ≠ .ldVxK x) → t.wait = s.wait)

/-- If exec of i takes s to t, every register is unchanged except a destination that the operands of i name and,
for ADD Vx,Vy, SUB, SUBN, SHR, SHL and DRW, VF; and after each of those six VF is 0 or 1, whatever x and y.
(10_state.md section 2, 42_alu.md section 1) -/
def Obligations.RegistersChangeOnlyWhereNamed : Prop :=
  ∀ i s t, exec i s = .next t →
    (∀ r, ¬ NamesDest r i → ¬ (WritesFlag i ∧ r = 15) → t.reg r = s.reg r) ∧
    (WritesFlag i → t.reg 15 = 0 ∨ t.reg 15 = 1)

/-- If i is neither RET, JP, CALL, JP V0, one of the six skips nor LD Vx,K and exec of i takes s to t, PC is
unchanged, so that after the step it is the fetch address plus 2. (10_state.md section 5, 40_step_cycle.md
section 1) -/
def Obligations.OnlyControlTransferWritesPc : Prop :=
  ∀ i s t, exec i s = .next t → ¬ WritesPc i → t.pc = s.pc

/-- 1nnn decodes to JP nnn; exec of it answers a state whose PC is nnn zero-extended to 16 bits and in which
nothing else has changed. The opcode number in the rule's encoding rests on the spec's G1 (log entry 5).
(R77) -/
def Obligations.JpJumps : Prop :=
  ∀ (nnn : Imm12) (s : State), decodeWord (packA 0x1 nnn) = some (.jp nnn) ∧
    ∃ t, exec (.jp nnn) s = .next t ∧ t.pc.toNat = nnn.toNat ∧ KeepsAllBut [.pc] s t

/-- 2nnn decodes to CALL nnn. With SP below 16, exec answers a state in which stack[SP] is the PC it found (the
return address), the other entries are unchanged, SP is one more, PC is nnn, and nothing else has changed.
With SP = 16, exec answers a state whose latch is StackOverflow and in which nothing else has changed,
neither the stack nor SP nor PC. The opcode number in the rule's encoding rests on the spec's G1 (log entry
5). (R78) -/
def Obligations.CallPushesOrOverflows : Prop :=
  ∀ (nnn : Imm12) (s : State), decodeWord (packA 0x2 nnn) = some (.call nnn) ∧
    (∀ h : s.sp.val < 16, ∃ t, exec (.call nnn) s = .next t ∧ t.stack[s.sp.val]'h = s.pc ∧
      (∀ k, (hk : k < 16) → k ≠ s.sp.val → t.stack[k] = s.stack[k]) ∧ t.sp.val = s.sp.val + 1 ∧
      t.pc.toNat = nnn.toNat ∧ KeepsAllBut [.stack, .sp, .pc] s t) ∧
    (s.sp.val = 16 → ∃ t, exec (.call nnn) s = .next t ∧ t.fault = some .stackOverflow ∧
      KeepsAllBut [.fault] s t)

/-- 0-EE decodes to RET whatever bits 11:8 are. With SP above 0, exec answers a state in which SP is one less,
PC is the entry at the new SP, all 16 bits, and nothing else has changed (the entry keeps its value). With
SP = 0, exec answers a state whose latch is StackUnderflow and in which nothing else has changed. The opcode
number in the rule's encoding rests on the spec's G1 (log entry 5). (R76) -/
def Obligations.RetPopsOrUnderflows : Prop :=
  ∀ (ign : Nibble) (s : State), decodeWord (packXK 0x0 ign 0xEE) = some (.ret ign) ∧
    (∀ h : 0 < s.sp.val, ∃ t, exec (.ret ign) s = .next t ∧ t.sp.val = s.sp.val - 1 ∧
      t.pc = s.stack[s.sp.val - 1]'(Nat.lt_of_lt_of_le (Nat.sub_one_lt_of_lt h) (Nat.le_of_lt_succ s.sp.isLt)) ∧
      KeepsAllBut [.sp, .pc] s t) ∧
    (s.sp.val = 0 → ∃ t, exec (.ret ign) s = .next t ∧ t.fault = some .stackUnderflow ∧
      KeepsAllBut [.fault] s t)

/-- 3xkk decodes to SE Vx,kk and 4xkk to SNE Vx,kk. Exec of SE answers a state whose PC is 2 more (modulo 65536)
when V[x] = kk and the same otherwise; exec of SNE the other way round; nothing else changes. The opcode
number in the rule's encoding rests on the spec's G1 (log entry 5). (R79, R80) -/
def Obligations.SkipsOnAnImmediate : Prop :=
  ∀ (x : Nibble) (kk : Byte) (s : State),
    decodeWord (packXK 0x3 x kk) = some (.seImm x kk) ∧ decodeWord (packXK 0x4 x kk) = some (.sneImm x kk) ∧
    (∃ t, exec (.seImm x kk) s = .next t ∧ KeepsAllBut [.pc] s t ∧
      t.pc = if (s.reg x).toNat = kk.toNat then s.pc + 2 else s.pc) ∧
    (∃ t, exec (.sneImm x kk) s = .next t ∧ KeepsAllBut [.pc] s t ∧
      t.pc = if (s.reg x).toNat = kk.toNat then s.pc else s.pc + 2)

/-- 5xy- decodes to SE Vx,Vy and 9xy- to SNE Vx,Vy whatever the low nibble, which is 0 in the canonical
spelling. Exec of SE answers a state whose PC is 2 more (modulo 65536) when V[x] = V[y] and the same
otherwise, so that it always skips with x = y; exec of SNE the other way round; nothing else changes. The
opcode number in the rule's encoding rests on the spec's G1 (log entry 5). (R81, R82) -/
def Obligations.SkipsOnRegisters : Prop :=
  ∀ (x y ign : Nibble) (s : State),
    decodeWord (packXYN 0x5 x y ign) = some (.seReg x y ign) ∧
    decodeWord (packXYN 0x9 x y ign) = some (.sneReg x y ign) ∧
    (Instr.wellFormed (.seReg x y ign) = true ↔ ign = 0) ∧
    (Instr.wellFormed (.sneReg x y ign) = true ↔ ign = 0) ∧
    (∃ t, exec (.seReg x y ign) s = .next t ∧ KeepsAllBut [.pc] s t ∧
      t.pc = if (s.reg x).toNat = (s.reg y).toNat then s.pc + 2 else s.pc) ∧
    (∃ t, exec (.sneReg x y ign) s = .next t ∧ KeepsAllBut [.pc] s t ∧
      t.pc = if (s.reg x).toNat = (s.reg y).toNat then s.pc else s.pc + 2)

/-- Exec of JP V0,nnn answers a state whose PC is the exact sum of nnn and V0 (at most 0x10FE) and in which
nothing else has changed. That the sum is not masked is the spec's decision D3. (41_flow.md section 2,
92_eei_decisions.md D3) -/
def Obligations.JpV0AddsV0 : Prop :=
  ∀ (nnn : Imm12) (s : State), decodeWord (packA 0xB nnn) = some (.jpV0 nnn) ∧
    ∃ t, exec (.jpV0 nnn) s = .next t ∧ t.pc.toNat = nnn.toNat + (s.reg 0).toNat ∧
      KeepsAllBut [.pc] s t

/-- From a state with SP + N at most 16, run the handlers of N calls (N at least 1) to any addresses and then of
N returns, each after the advance of its step: the result is a state whose PC is the address after the first
call, whose SP is that of the start and whose latch is that of the start; if SP was 0 at the start, the
handler of one more return latches StackUnderflow. The pre-call value is read as the spec's C2 reads it.
(41_flow.md section 1, 90_conflicts.md C2) -/
def Obligations.CallsAndReturnsBalance : Prop :=
  ∀ (s : State) (targets : List Imm12) (ign : Nibble), targets ≠ [] →
    s.sp.val + targets.length ≤ 16 →
    ∃ t, runHandlers (targets.map .call ++ List.replicate targets.length (.ret ign)) s = .next t ∧
      t.pc = s.pc + 2 ∧ t.sp = s.sp ∧ t.fault = s.fault ∧
      (s.sp.val = 0 → ∃ u, exec (.ret ign) t.advance = .next u ∧ u.fault = some .stackUnderflow)

/-- 6xkk decodes to LD Vx,kk and 7xkk to ADD Vx,kk. Exec of LD answers a state in which V[x] is kk; exec of ADD
one in which V[x] is the sum of V[x] and kk modulo 256; every other register (VF too, unless x is 15) and
every other piece of state is unchanged. The opcode number in the rule's encoding rests on the spec's G1
(log entry 5). (R92, R93) -/
def Obligations.LoadAndAddImmediate : Prop :=
  ∀ (x : Nibble) (kk : Byte) (s : State),
    decodeWord (packXK 0x6 x kk) = some (.ldImm x kk) ∧ decodeWord (packXK 0x7 x kk) = some (.addImm x kk) ∧
    (∃ t, exec (.ldImm x kk) s = .next t ∧ t.reg x = kk ∧ KeepsRegsBut (· = x) s t ∧
      KeepsAllBut [.v] s t) ∧
    (∃ t, exec (.addImm x kk) s = .next t ∧ (t.reg x).toNat = ((s.reg x).toNat + kk.toNat) % 256 ∧
      KeepsRegsBut (· = x) s t ∧ KeepsAllBut [.v] s t)

/-- 8xy0, 8xy1, 8xy2 and 8xy3 decode to LD, OR, AND and XOR of Vx,Vy. Exec of each answers a state in which bit
k of V[x] is bit k of V[y], or the or, the and, the exclusive or of bit k of the old V[x] and V[y]; every
other register (VF too, unless x is 15) and every other piece of state is unchanged. The opcode number in
the rule's encoding rests on the spec's G1 (log entry 5). (R94, R95, R96, R97) -/
def Obligations.CopyAndLogic : Prop :=
  ∀ (x y : Nibble) (s : State),
    decodeWord (packXYN 0x8 x y 0x0) = some (.ldReg x y) ∧ decodeWord (packXYN 0x8 x y 0x1) = some (.orReg x y) ∧
    decodeWord (packXYN 0x8 x y 0x2) = some (.andReg x y) ∧
    decodeWord (packXYN 0x8 x y 0x3) = some (.xorReg x y) ∧
    (∃ t, exec (.ldReg x y) s = .next t ∧ t.reg x = s.reg y ∧ KeepsRegsBut (· = x) s t ∧
      KeepsAllBut [.v] s t) ∧
    (∃ t, exec (.orReg x y) s = .next t ∧ KeepsRegsBut (· = x) s t ∧ KeepsAllBut [.v] s t ∧
      ∀ k, (t.reg x).getLsbD k = ((s.reg x).getLsbD k || (s.reg y).getLsbD k)) ∧
    (∃ t, exec (.andReg x y) s = .next t ∧ KeepsRegsBut (· = x) s t ∧ KeepsAllBut [.v] s t ∧
      ∀ k, (t.reg x).getLsbD k = ((s.reg x).getLsbD k && (s.reg y).getLsbD k)) ∧
    (∃ t, exec (.xorReg x y) s = .next t ∧ KeepsRegsBut (· = x) s t ∧ KeepsAllBut [.v] s t ∧
      ∀ k, (t.reg x).getLsbD k = ((s.reg x).getLsbD k ^^ (s.reg y).getLsbD k))

/-- 8xy4 decodes to ADD Vx,Vy. With a and b the old V[x] and V[y], exec answers a state in which VF is 1 if a +
b exceeds 255 and 0 otherwise, for all x and y; V[x], when x is not 15, is (a + b) modulo 256; every other
register and every other piece of state is unchanged. The opcode number in the rule's encoding rests on the
spec's G1 (log entry 5). (R98) -/
def Obligations.AddSetsCarry : Prop :=
  ∀ (x y : Nibble) (s : State), decodeWord (packXYN 0x8 x y 0x4) = some (.addReg x y) ∧
    ∃ t, exec (.addReg x y) s = .next t ∧
      t.reg 15 = (if (s.reg x).toNat + (s.reg y).toNat > 255 then 1 else 0) ∧
      (x ≠ 15 → (t.reg x).toNat = ((s.reg x).toNat + (s.reg y).toNat) % 256) ∧
      KeepsRegsBut (fun r => r = x ∨ r = 15) s t ∧ KeepsAllBut [.v] s t

/-- 8xy5 decodes to SUB Vx,Vy. With a and b the old V[x] and V[y], exec answers a state in which VF is 1 if a is
at least b and 0 otherwise, for all x and y; V[x], when x is not 15, is (a - b) modulo 256; every other
register and every other piece of state is unchanged. The opcode number in the rule's encoding rests on the
spec's G1 (log entry 5). (R99) -/
def Obligations.SubSetsNoBorrow : Prop :=
  ∀ (x y : Nibble) (s : State), decodeWord (packXYN 0x8 x y 0x5) = some (.sub x y) ∧
    ∃ t, exec (.sub x y) s = .next t ∧
      t.reg 15 = (if (s.reg x).toNat ≥ (s.reg y).toNat then 1 else 0) ∧
      (x ≠ 15 → (t.reg x).toNat = ((s.reg x).toNat + 256 - (s.reg y).toNat) % 256) ∧
      KeepsRegsBut (fun r => r = x ∨ r = 15) s t ∧ KeepsAllBut [.v] s t

/-- 8xy7 decodes to SUBN Vx,Vy. With a and b the old V[x] and V[y], exec answers a state in which VF is 1 if b
is at least a and 0 otherwise; V[x], when x is not 15, is (b - a) modulo 256; every other register and every
other piece of state is unchanged. That the flag is written last is for SUBN the spec's decision D7.
(42_alu.md section 2, 92_eei_decisions.md D7) -/
def Obligations.SubnReversesSub : Prop :=
  ∀ (x y : Nibble) (s : State), decodeWord (packXYN 0x8 x y 0x7) = some (.subn x y) ∧
    ∃ t, exec (.subn x y) s = .next t ∧
      t.reg 15 = (if (s.reg y).toNat ≥ (s.reg x).toNat then 1 else 0) ∧
      (x ≠ 15 → (t.reg x).toNat = ((s.reg y).toNat + 256 - (s.reg x).toNat) % 256) ∧
      KeepsRegsBut (fun r => r = x ∨ r = 15) s t ∧ KeepsAllBut [.v] s t

/-- 8xy6 decodes to SHR Vx and 8xyE to SHL Vx. With a the old V[x], exec of SHR answers a state in which VF is 1
if a is odd and 0 otherwise and V[x], when x is not 15, is a div 2; exec of SHL one in which VF is 1 if a is
at least 128 and 0 otherwise and V[x], when x is not 15, is 2a modulo 256; every other register (V[y] too)
and every other piece of state is unchanged. In place is the spec's decision D6, the flag last its D7.
(42_alu.md section 1, 42_alu.md section 2, 92_eei_decisions.md D6, 92_eei_decisions.md D7) -/
def Obligations.ShiftsMoveOneBitIntoVf : Prop :=
  ∀ (x y : Nibble) (s : State),
    decodeWord (packXYN 0x8 x y 0x6) = some (.shr x y) ∧ decodeWord (packXYN 0x8 x y 0xE) = some (.shl x y) ∧
    (∃ t, exec (.shr x y) s = .next t ∧ t.reg 15 = (if (s.reg x).toNat % 2 = 1 then 1 else 0) ∧
      (x ≠ 15 → (t.reg x).toNat = (s.reg x).toNat / 2) ∧
      KeepsRegsBut (fun r => r = x ∨ r = 15) s t ∧ KeepsAllBut [.v] s t) ∧
    (∃ t, exec (.shl x y) s = .next t ∧ t.reg 15 = (if (s.reg x).toNat ≥ 128 then 1 else 0) ∧
      (x ≠ 15 → (t.reg x).toNat = 2 * (s.reg x).toNat % 256) ∧
      KeepsRegsBut (fun r => r = x ∨ r = 15) s t ∧ KeepsAllBut [.v] s t)

/-- Cxkk decodes to RND Vx,kk. Exec answers a state in which V[x] is the next byte of the random source and kk
bit by bit, so that no bit outside kk is set; a byte the environment has injected at the position is the
byte drawn; the position advances by 1, also with kk = 0; every other register (VF too, unless x is 15) and
every other piece of state is unchanged. The clause about the injected byte is the model's choice, and so is
that the draw is otherwise a free value (both log entry 1, DESIGN CHOICE, over the spec's R23, R108 and its
decision D24): the statement holds for every value. The opcode number in the rule's encoding rests on the
spec's G1 (log entry 5). (42_alu.md section 2, 10_state.md section 12, 92_eei_decisions.md D24) -/
def Obligations.RndMasksOneDraw : Prop :=
  ∀ (x : Nibble) (kk : Byte) (s : State), decodeWord (packXK 0xC x kk) = some (.rnd x kk) ∧
    ∃ t, exec (.rnd x kk) s = .next t ∧
      (∀ k, (t.reg x).getLsbD k = (s.rng.next.getLsbD k && kk.getLsbD k)) ∧
      (∀ b, s.rng.injected[s.rng.drawn]? = some b → t.reg x = b &&& kk) ∧
      t.rng = { s.rng with drawn := s.rng.drawn + 1 } ∧
      KeepsRegsBut (· = x) s t ∧ KeepsAllBut [.v, .rng] s t

/-- Annn decodes to LD I,nnn; exec of it answers a state whose I is nnn zero-extended to 16 bits and in which
nothing else has changed. The opcode number in the rule's encoding rests on the spec's G1 (log entry 5).
(R111) -/
def Obligations.LdILoadsTheAddress : Prop :=
  ∀ (nnn : Imm12) (s : State), decodeWord (packA 0xA nnn) = some (.ldI nnn) ∧
    ∃ t, exec (.ldI nnn) s = .next t ∧ t.i.toNat = nnn.toNat ∧ KeepsAllBut [.i] s t

/-- Exec of ADD I,Vx answers a state whose I is the sum of I and V[x] modulo 65536, not masked to 12 bits, with
VF unchanged; exec of LD F,Vx one whose I is 0x050 + 5 V[x] for the whole byte V[x]; nothing else changes.
The missing masks and the missing flag are the spec's decisions D5, D11 and D28. (43_index_memory.md section
2, 92_eei_decisions.md D5, 92_eei_decisions.md D11, 92_eei_decisions.md D28) -/
def Obligations.AddIAndLdFFormAddresses : Prop :=
  ∀ (x : Nibble) (s : State),
    decodeWord (packXK 0xF x 0x1E) = some (.addI x) ∧ decodeWord (packXK 0xF x 0x29) = some (.ldF x) ∧
    (∃ t, exec (.addI x) s = .next t ∧ t.i.toNat = (s.i.toNat + (s.reg x).toNat) % 65536 ∧
      KeepsAllBut [.i] s t) ∧
    (∃ t, exec (.ldF x) s = .next t ∧ t.i.toNat = 0x050 + 5 * (s.reg x).toNat ∧ KeepsAllBut [.i] s t)

/-- Fx33 decodes to LD B,Vx. For a state whose memory is in canonical form, exec answers a state in which the
bytes at I, I + 1 and I + 2 (masked) are V[x] div 100, (V[x] div 10) mod 10 and V[x] mod 10; every other
byte of memory and every other piece of state, I too, is unchanged. The opcode number in the rule's encoding
rests on the spec's G1 (log entry 5). (R114) -/
def Obligations.LdBStoresThreeDigits : Prop :=
  ∀ (x : Nibble) (s : State), decodeWord (packXK 0xF x 0x33) = some (.ldB x) ∧
    (Memory.wf s.mem = true → ∃ t, exec (.ldB x) s = .next t ∧
      (t.memRead s.i.toNat).toNat = (s.reg x).toNat / 100 ∧
      (t.memRead (s.i.toNat + 1)).toNat = (s.reg x).toNat / 10 % 10 ∧
      (t.memRead (s.i.toNat + 2)).toNat = (s.reg x).toNat % 10 ∧
      KeepsMemBut s.i.toNat 3 s t ∧ KeepsAllBut [.mem] s t)

/-- Fx55 decodes to LD [I],Vx. For a state whose memory is in canonical form, exec answers a state in which, for
every k from 0 to x, the byte at I + k (masked) is V[k]; every other byte of memory and every other piece of
state, I and the registers too, is unchanged. The opcode number in the rule's encoding rests on the spec's
G1 (log entry 5). (R115) -/
def Obligations.LdMemVxDumpsRegisters : Prop :=
  ∀ (x : Nibble) (s : State), decodeWord (packXK 0xF x 0x55) = some (.ldMemVx x) ∧
    (Memory.wf s.mem = true → ∃ t, exec (.ldMemVx x) s = .next t ∧
      (∀ k : Nibble, k ≤ x → t.memRead (s.i.toNat + k.toNat) = s.reg k) ∧
      KeepsMemBut s.i.toNat (x.toNat + 1) s t ∧ KeepsAllBut [.mem] s t)

/-- Fx65 decodes to LD Vx,[I]. Exec answers a state in which, for every k from 0 to x, V[k] is the byte at I + k
(masked); every register above x and every other piece of state, I and memory too, is unchanged. The opcode
number in the rule's encoding rests on the spec's G1 (log entry 5). (R116) -/
def Obligations.LdVxMemLoadsRegisters : Prop :=
  ∀ (x : Nibble) (s : State), decodeWord (packXK 0xF x 0x65) = some (.ldVxMem x) ∧
    ∃ t, exec (.ldVxMem x) s = .next t ∧
      (∀ k : Nibble, k ≤ x → t.reg k = s.memRead (s.i.toNat + k.toNat)) ∧
      KeepsRegsBut (· ≤ x) s t ∧ KeepsAllBut [.v] s t

/-- For a state s whose memory is in canonical form: dump V0 to Vx, then set all sixteen registers to anything,
then load V0 to Vx with I as it was: V0 to Vx hold what they held in s, and the registers above x hold what
they held before the load. It holds with the address range wrapping at 0xFFF too. (43_index_memory.md
section 1, 43_index_memory.md section 2) -/
def Obligations.LoadAfterDumpRestores : Prop :=
  ∀ (x : Nibble) (s : State), Memory.wf s.mem = true → ∃ t, exec (.ldMemVx x) s = .next t ∧
    ∀ v : Vector Byte 16, ∃ u, exec (.ldVxMem x) (t.setRegs v) = .next u ∧
      (∀ k : Nibble, k ≤ x → u.reg k = s.reg k) ∧ (∀ k : Nibble, ¬ k ≤ x → u.reg k = v[k.toNat]'k.isLt)

/-- For a state whose memory is in canonical form and x at least 1: after LD [I],Vx the word at I is V0 and V1,
high byte first; and if PC names the same cell as I and the core is neither faulted nor waiting, the next
step runs the instruction that word decodes to. (20_memory.md section 5) -/
def Obligations.StoredCodeIsFetched : Prop :=
  ∀ (x : Nibble) (s : State), Memory.wf s.mem = true → 1 ≤ x.toNat →
    ∃ t, exec (.ldMemVx x) s = .next t ∧ t.memReadWord s.i.toNat = wordOfBytes (s.reg 0) (s.reg 1) ∧
      ∀ i, maskAddr s.pc.toNat = maskAddr s.i.toNat → s.fault = none → s.wait = .running →
        decodeWord (wordOfBytes (s.reg 0) (s.reg 1)) = some i → step t = exec i t.advance

/-- 0-E0 decodes to CLS whatever bits 11:8 are; exec of it answers a state in which every pixel is off and
nothing else, VF too, has changed. The opcode number in the rule's encoding rests on the spec's G1 (log
entry 5). (R126) -/
def Obligations.ClsClearsTheScreen : Prop :=
  ∀ (ign : Nibble) (s : State), decodeWord (packXK 0x0 ign 0xE0) = some (.cls ign) ∧
    ∃ t, exec (.cls ign) s = .next t ∧ (∀ px py, t.fb.pixel px py = false) ∧ KeepsAllBut [.fb] s t

/-- Dxyn decodes to DRW Vx,Vy,n. Exec answers a state in which a pixel differs from before exactly when the
sprite lights it: when some row r below n and column c below 8 has bit 7 - c of the byte at I + r (masked)
set, px = (V[x] mod 64 + c) mod 64 and py = (V[y] mod 32 + r) mod 32, with V[x] and V[y] as they were
before; VF is 1 if some lit pixel was on before and 0 otherwise; nothing else changes. The bit order is the
spec's D9 (log entry 7), the order of operand reads its D8. (44_display.md section 1, 44_display.md section
2, 92_eei_decisions.md D8, 92_eei_decisions.md D9) -/
def Obligations.DrwXorsTheSprite : Prop :=
  ∀ (x y n : Nibble) (s : State), decodeWord (packXYN 0xD x y n) = some (.drw x y n) ∧
    ∃ t, exec (.drw x y n) s = .next t ∧
      (∀ px py, t.fb.pixel px py ≠ s.fb.pixel px py ↔ SpriteLights s x y n px py) ∧
      ((∃ px py, SpriteLights s x y n px py ∧ s.fb.pixel px py = true) → t.reg 15 = 1) ∧
      ((¬ ∃ px py, SpriteLights s x y n px py ∧ s.fb.pixel px py = true) → t.reg 15 = 0) ∧
      KeepsRegsBut (· = 15) s t ∧ KeepsAllBut [.fb, .v] s t

/-- Draw a sprite from s, giving t; then draw it again with the registers, I and memory of s and the screen of
t: the screen is that of s again, and VF after the second draw is 1 exactly when the first draw turned some
pixel on, and 0 otherwise. It holds for all x and y, VF among them. (44_display.md section 2,
95_test_vectors.md section 1, 90_conflicts.md C10) -/
def Obligations.DrwTwiceRestoresTheScreen : Prop :=
  ∀ (x y n : Nibble) (s : State), ∃ t u, exec (.drw x y n) s = .next t ∧
    exec (.drw x y n) (s.setFb t.fb) = .next u ∧ (∀ px py, u.fb.pixel px py = s.fb.pixel px py) ∧
    (u.reg 15 = 1 ↔ ∃ px py, s.fb.pixel px py = false ∧ t.fb.pixel px py = true) ∧
    (u.reg 15 = 0 ∨ u.reg 15 = 1)

/-- Take two sprites with positions, given by the registers, I and memory of two states a and b: drawing a's
sprite and then b's on a screen gives the same screen as drawing b's and then a's. VF may differ.
(44_display.md section 2) -/
def Obligations.DrawsCommuteOnTheScreen : Prop :=
  ∀ (x y n x' y' n' : Nibble) (a b : State) (fb : Framebuffer), ∃ ta tab tb tba,
    exec (.drw x y n) (a.setFb fb) = .next ta ∧ exec (.drw x' y' n') (b.setFb ta.fb) = .next tab ∧
    exec (.drw x' y' n') (b.setFb fb) = .next tb ∧ exec (.drw x y n) (a.setFb tb.fb) = .next tba ∧
    ∀ px py, tab.fb.pixel px py = tba.fb.pixel px py

/-- Exec of DRW Vx,Vy,n answers a state whose screen differs from the old one in exactly as many pixels as there
are 1 bits in the n bytes from I on (masked). (44_display.md section 2) -/
def Obligations.DrwChangesOnePixelPerSpriteBit : Prop :=
  ∀ (x y n : Nibble) (s : State), ∃ t, exec (.drw x y n) s = .next t ∧
    pixelsChanged s.fb t.fb =
      ((List.range n.toNat).map (fun r => bitsSet (s.memRead (s.i.toNat + r)))).sum

/-- Exec of SKP answers a state whose PC is 2 more when V[x] is at most 15 and key V[x] is down, and the same
otherwise, also for V[x] of 16 or more; exec of SKNP the other way round, so that it always skips for V[x]
of 16 or more; nothing else changes. The reading for 16 and more is the spec's decision D12.
(45_keys_timers.md section 2, 92_eei_decisions.md D12) -/
def Obligations.KeySkips : Prop :=
  ∀ (x : Nibble) (s : State),
    decodeWord (packXK 0xE x 0x9E) = some (.skp x) ∧ decodeWord (packXK 0xE x 0xA1) = some (.sknp x) ∧
    ∃ t u, exec (.skp x) s = .next t ∧ exec (.sknp x) s = .next u ∧
      KeepsAllBut [.pc] s t ∧ KeepsAllBut [.pc] s u ∧
      (∀ h : (s.reg x).toNat < 16,
        (s.keys[(s.reg x).toNat] = true → t.pc = s.pc + 2 ∧ u.pc = s.pc) ∧
        (s.keys[(s.reg x).toNat] = false → t.pc = s.pc ∧ u.pc = s.pc + 2)) ∧
      (16 ≤ (s.reg x).toNat → t.pc = s.pc ∧ u.pc = s.pc + 2)

/-- Fx07, Fx15 and Fx18 decode to LD Vx,DT, LD DT,Vx and LD ST,Vx. Exec of each answers a state in which V[x] is
DT, or DT is V[x], or ST is V[x], and nothing else has changed; the tick after LD DT,Vx leaves V[x] - 1, or
0 where V[x] is 0; after LD ST,Vx the sound signal is on exactly when V[x] is above 0, and one tick ends it
when V[x] is 1; and no instruction reads ST: with another value in ST every instruction but LD ST,Vx does
the same and leaves that value. The opcode number in the rule's encoding rests on the spec's G1 (log entry
5). (R138, R139, R140) -/
def Obligations.TimersAreCopied : Prop :=
  ∀ (x : Nibble) (s : State),
    decodeWord (packXK 0xF x 0x07) = some (.ldVxDt x) ∧ decodeWord (packXK 0xF x 0x15) = some (.ldDtVx x) ∧
    decodeWord (packXK 0xF x 0x18) = some (.ldStVx x) ∧
    (∃ t, exec (.ldVxDt x) s = .next t ∧ t.reg x = s.dt ∧ KeepsRegsBut (· = x) s t ∧
      KeepsAllBut [.v] s t) ∧
    (∃ t, exec (.ldDtVx x) s = .next t ∧ t.dt = s.reg x ∧ KeepsAllBut [.dt] s t ∧
      t.tickTimers.dt.toNat = (s.reg x).toNat - 1) ∧
    (∃ t, exec (.ldStVx x) s = .next t ∧ t.st = s.reg x ∧ KeepsAllBut [.st] s t ∧
      (t.soundOn = true ↔ s.reg x ≠ 0) ∧ (s.reg x = 1 → t.tickTimers.soundOn = false)) ∧
    (∀ i b t, (∀ z, i ≠ .ldStVx z) → exec i s = .next t → exec i (s.setSt b) = .next (t.setSt b))

/-- Fx0A decodes to LD Vx,K. With key k down and no lower key down, exec answers a state in which V[x] is k and
nothing else has changed, the marker and PC (the fetch address + 2) included. With no key down, exec answers
a state whose marker is AWAITING_KEY(x), whose PC is 2 less modulo 65536 (the fetch address), and in which
nothing else has changed. That a key already down completes the instruction at once is the spec's decision
D13. (45_keys_timers.md section 4, 92_eei_decisions.md D13) -/
def Obligations.LdVxKTakesAKeyOrWaits : Prop :=
  ∀ (x : Nibble) (s : State), decodeWord (packXK 0xF x 0x0A) = some (.ldVxK x) ∧
    (∀ k, (hk : k < 16) → s.keys[k] = true → (∀ j, (h : j < k) → s.keys[j] = false) →
      ∃ t, exec (.ldVxK x) s = .next t ∧ t.reg x = BitVec.ofNat 8 k ∧ KeepsRegsBut (· = x) s t ∧
        KeepsAllBut [.v] s t) ∧
    ((∀ j, (h : j < 16) → s.keys[j] = false) →
      ∃ t, exec (.ldVxK x) s = .next t ∧ t.wait = .awaitingKey x ∧ t.pc = s.pc - 2 ∧
        KeepsAllBut [.wait, .pc] s t)
end

