-- ==== Sys2Proof/Laws/Decode.lean ====
section
/-! SUPPORT. The fields of a word that was put together from its fields, and a word put together again from
its own fields (30_encoding.md R51, R52). -/

namespace Sys2Proof

theorem toNat_append_eq {n m : Nat} (a : BitVec n) (b : BitVec m) :
    (a ++ b).toNat = a.toNat * 2 ^ m + b.toNat := by
  rw [BitVec.toNat_append, ← Nat.shiftLeft_add_eq_or_of_lt b.isLt, Nat.shiftLeft_eq]

/-! The numbers that the packed words and the fields are. -/

theorem toNat_packXK (op x : Nibble) (kk : Byte) :
    (packXK op x kk).toNat = op.toNat * 4096 + x.toNat * 256 + kk.toNat := by
  have h : (packXK op x kk).toNat = (op ++ x ++ kk).toNat := rfl
  rw [h, toNat_append_eq, toNat_append_eq]
  omega

theorem toNat_packA (op : Nibble) (nnn : Imm12) : (packA op nnn).toNat = op.toNat * 4096 + nnn.toNat := by
  have h : (packA op nnn).toNat = (op ++ nnn).toNat := rfl
  rw [h, toNat_append_eq]
  omega

theorem toNat_packXYN (op x y n : Nibble) :
    (packXYN op x y n).toNat = op.toNat * 4096 + x.toNat * 256 + y.toNat * 16 + n.toNat := by
  have h : (packXYN op x y n).toNat = (op ++ x ++ y ++ n).toNat := rfl
  rw [h, toNat_append_eq, toNat_append_eq, toNat_append_eq]
  omega

theorem toNat_op (w : Word) : (Word.op w).toNat = w.toNat / 4096 := by
  have := w.isLt
  simp [Word.op, BitVec.extractLsb'_toNat, Nat.shiftRight_eq_div_pow]
  omega

theorem toNat_x (w : Word) : (Word.x w).toNat = w.toNat / 256 % 16 := by
  simp [Word.x, BitVec.extractLsb'_toNat, Nat.shiftRight_eq_div_pow]

theorem toNat_y (w : Word) : (Word.y w).toNat = w.toNat / 16 % 16 := by
  simp [Word.y, BitVec.extractLsb'_toNat, Nat.shiftRight_eq_div_pow]

theorem toNat_n (w : Word) : (Word.n w).toNat = w.toNat % 16 := by
  simp [Word.n, BitVec.extractLsb'_toNat]

theorem toNat_kk (w : Word) : (Word.kk w).toNat = w.toNat % 256 := by
  simp [Word.kk, BitVec.extractLsb'_toNat]

theorem toNat_nnn (w : Word) : (Word.nnn w).toNat = w.toNat % 4096 := by
  simp [Word.nnn, BitVec.extractLsb'_toNat]

/-! The fields of packed words. -/

@[simp] theorem op_packXK (op x : Nibble) (kk : Byte) : Word.op (packXK op x kk) = op := by
  apply BitVec.eq_of_toNat_eq
  rw [toNat_op, toNat_packXK]
  omega

@[simp] theorem x_packXK (op x : Nibble) (kk : Byte) : Word.x (packXK op x kk) = x := by
  apply BitVec.eq_of_toNat_eq
  rw [toNat_x, toNat_packXK]
  omega

@[simp] theorem kk_packXK (op x : Nibble) (kk : Byte) : Word.kk (packXK op x kk) = kk := by
  apply BitVec.eq_of_toNat_eq
  rw [toNat_kk, toNat_packXK]
  omega

@[simp] theorem op_packA (op : Nibble) (nnn : Imm12) : Word.op (packA op nnn) = op := by
  apply BitVec.eq_of_toNat_eq
  rw [toNat_op, toNat_packA]
  omega

@[simp] theorem nnn_packA (op : Nibble) (nnn : Imm12) : Word.nnn (packA op nnn) = nnn := by
  apply BitVec.eq_of_toNat_eq
  rw [toNat_nnn, toNat_packA]
  omega

@[simp] theorem op_packXYN (op x y n : Nibble) : Word.op (packXYN op x y n) = op := by
  apply BitVec.eq_of_toNat_eq
  rw [toNat_op, toNat_packXYN]
  omega

@[simp] theorem x_packXYN (op x y n : Nibble) : Word.x (packXYN op x y n) = x := by
  apply BitVec.eq_of_toNat_eq
  rw [toNat_x, toNat_packXYN]
  omega

@[simp] theorem y_packXYN (op x y n : Nibble) : Word.y (packXYN op x y n) = y := by
  apply BitVec.eq_of_toNat_eq
  rw [toNat_y, toNat_packXYN]
  omega

@[simp] theorem n_packXYN (op x y n : Nibble) : Word.n (packXYN op x y n) = n := by
  apply BitVec.eq_of_toNat_eq
  rw [toNat_n, toNat_packXYN]
  omega

/-! Masking a packed word masks each field. -/

theorem packXK_and (op x : Nibble) (kk : Byte) (mo mx : Nibble) (mk : Byte) :
    packXK op x kk &&& packXK mo mx mk = packXK (op &&& mo) (x &&& mx) (kk &&& mk) := by
  have h : ((op ++ x ++ kk) &&& (mo ++ mx ++ mk)) = (op &&& mo) ++ (x &&& mx) ++ (kk &&& mk) := by
    rw [BitVec.and_append, BitVec.and_append]
  exact h

theorem packA_and (op : Nibble) (nnn : Imm12) (mo : Nibble) (mn : Imm12) :
    packA op nnn &&& packA mo mn = packA (op &&& mo) (nnn &&& mn) := by
  have h : ((op ++ nnn) &&& (mo ++ mn)) = (op &&& mo) ++ (nnn &&& mn) := by rw [BitVec.and_append]
  exact h

theorem packXYN_and (op x y n mo mx my mn : Nibble) :
    packXYN op x y n &&& packXYN mo mx my mn = packXYN (op &&& mo) (x &&& mx) (y &&& my) (n &&& mn) := by
  have h : ((op ++ x ++ y ++ n) &&& (mo ++ mx ++ my ++ mn))
      = (op &&& mo) ++ (x &&& mx) ++ (y &&& my) ++ (n &&& mn) := by
    rw [BitVec.and_append, BitVec.and_append, BitVec.and_append]
  exact h

/-! A word is put together again from its fields. -/

@[simp] theorem packXK_fields (w : Word) : packXK (Word.op w) (Word.x w) (Word.kk w) = w := by
  apply BitVec.eq_of_toNat_eq
  rw [toNat_packXK, toNat_op, toNat_x, toNat_kk]
  omega

@[simp] theorem packA_fields (w : Word) : packA (Word.op w) (Word.nnn w) = w := by
  apply BitVec.eq_of_toNat_eq
  rw [toNat_packA, toNat_op, toNat_nnn]
  omega

@[simp] theorem packXYN_fields (w : Word) : packXYN (Word.op w) (Word.x w) (Word.y w) (Word.n w) = w := by
  apply BitVec.eq_of_toNat_eq
  rw [toNat_packXYN, toNat_op, toNat_x, toNat_y, toNat_n]
  omega

/-! A word with known fields is the packed word of them. -/

theorem packXK_of {w : Word} {o : Nibble} {k : Byte} (ho : Word.op w = o) (hk : Word.kk w = k) :
    packXK o (Word.x w) k = w := by
  rw [← ho, ← hk, packXK_fields]

theorem packXYN_of {w : Word} {o k : Nibble} (ho : Word.op w = o) (hk : Word.n w = k) :
    packXYN o (Word.x w) (Word.y w) k = w := by
  rw [← ho, ← hk, packXYN_fields]

theorem packA_of {w : Word} {o : Nibble} (ho : Word.op w = o) : packA o (Word.nnn w) = w := by
  rw [← ho, packA_fields]

/-- The sixteen values of `op` and of the key `n`. -/
theorem nibble_cases (o : Nibble) :
    o = 0x0 ∨ o = 0x1 ∨ o = 0x2 ∨ o = 0x3 ∨ o = 0x4 ∨ o = 0x5 ∨ o = 0x6 ∨ o = 0x7 ∨
    o = 0x8 ∨ o = 0x9 ∨ o = 0xA ∨ o = 0xB ∨ o = 0xC ∨ o = 0xD ∨ o = 0xE ∨ o = 0xF := by
  revert o
  decide

/-- The two bytes of a word make the word again (R50). -/
@[simp] theorem wordOfBytes_bytes (w : Word) : wordOfBytes (Word.hiByte w) (Word.loByte w) = w := by
  have h : (wordOfBytes (Word.hiByte w) (Word.loByte w)).toNat
      = (Word.hiByte w ++ Word.loByte w).toNat := rfl
  apply BitVec.eq_of_toNat_eq
  rw [h, toNat_append_eq]
  have := w.isLt
  simp [Word.hiByte, Word.loByte, BitVec.extractLsb'_toNat, Nat.shiftRight_eq_div_pow]
  omega

end Sys2Proof
end

