-- ==== Sys2Proof/Laws/State.lean ====
section
/-! SUPPORT. One lemma per field per update of the state: what the update makes of the field. -/

namespace Sys2Proof.Machine

/-! `State.setReg` -/

@[simp] theorem State.setReg_mem (s : State) (r : Nibble) (b : Byte) : (s.setReg r b).mem = s.mem := rfl
@[simp] theorem State.setReg_v (s : State) (r : Nibble) (b : Byte)
    : (s.setReg r b).v = s.v.set r.toNat b r.isLt := rfl
@[simp] theorem State.setReg_i (s : State) (r : Nibble) (b : Byte) : (s.setReg r b).i = s.i := rfl
@[simp] theorem State.setReg_pc (s : State) (r : Nibble) (b : Byte) : (s.setReg r b).pc = s.pc := rfl
@[simp] theorem State.setReg_dt (s : State) (r : Nibble) (b : Byte) : (s.setReg r b).dt = s.dt := rfl
@[simp] theorem State.setReg_st (s : State) (r : Nibble) (b : Byte) : (s.setReg r b).st = s.st := rfl
@[simp] theorem State.setReg_stack (s : State) (r : Nibble) (b : Byte) : (s.setReg r b).stack = s.stack := rfl
@[simp] theorem State.setReg_sp (s : State) (r : Nibble) (b : Byte) : (s.setReg r b).sp = s.sp := rfl
@[simp] theorem State.setReg_fb (s : State) (r : Nibble) (b : Byte) : (s.setReg r b).fb = s.fb := rfl
@[simp] theorem State.setReg_keys (s : State) (r : Nibble) (b : Byte) : (s.setReg r b).keys = s.keys := rfl
@[simp] theorem State.setReg_wait (s : State) (r : Nibble) (b : Byte) : (s.setReg r b).wait = s.wait := rfl
@[simp] theorem State.setReg_fault (s : State) (r : Nibble) (b : Byte) : (s.setReg r b).fault = s.fault := rfl
@[simp] theorem State.setReg_rng (s : State) (r : Nibble) (b : Byte) : (s.setReg r b).rng = s.rng := rfl
@[simp] theorem State.setReg_policy (s : State) (r : Nibble) (b : Byte) : (s.setReg r b).policy = s.policy := rfl
@[simp] theorem State.setReg_report (s : State) (r : Nibble) (b : Byte) : (s.setReg r b).report = s.report := rfl

/-! `State.setRegs` -/

@[simp] theorem State.setRegs_mem (s : State) (v : Vector Byte 16) : (s.setRegs v).mem = s.mem := rfl
@[simp] theorem State.setRegs_v (s : State) (v : Vector Byte 16) : (s.setRegs v).v = v := rfl
@[simp] theorem State.setRegs_i (s : State) (v : Vector Byte 16) : (s.setRegs v).i = s.i := rfl
@[simp] theorem State.setRegs_pc (s : State) (v : Vector Byte 16) : (s.setRegs v).pc = s.pc := rfl
@[simp] theorem State.setRegs_dt (s : State) (v : Vector Byte 16) : (s.setRegs v).dt = s.dt := rfl
@[simp] theorem State.setRegs_st (s : State) (v : Vector Byte 16) : (s.setRegs v).st = s.st := rfl
@[simp] theorem State.setRegs_stack (s : State) (v : Vector Byte 16) : (s.setRegs v).stack = s.stack := rfl
@[simp] theorem State.setRegs_sp (s : State) (v : Vector Byte 16) : (s.setRegs v).sp = s.sp := rfl
@[simp] theorem State.setRegs_fb (s : State) (v : Vector Byte 16) : (s.setRegs v).fb = s.fb := rfl
@[simp] theorem State.setRegs_keys (s : State) (v : Vector Byte 16) : (s.setRegs v).keys = s.keys := rfl
@[simp] theorem State.setRegs_wait (s : State) (v : Vector Byte 16) : (s.setRegs v).wait = s.wait := rfl
@[simp] theorem State.setRegs_fault (s : State) (v : Vector Byte 16) : (s.setRegs v).fault = s.fault := rfl
@[simp] theorem State.setRegs_rng (s : State) (v : Vector Byte 16) : (s.setRegs v).rng = s.rng := rfl
@[simp] theorem State.setRegs_policy (s : State) (v : Vector Byte 16) : (s.setRegs v).policy = s.policy := rfl
@[simp] theorem State.setRegs_report (s : State) (v : Vector Byte 16) : (s.setRegs v).report = s.report := rfl

/-! `State.setI` -/

@[simp] theorem State.setI_mem (s : State) (w : Word) : (s.setI w).mem = s.mem := rfl
@[simp] theorem State.setI_v (s : State) (w : Word) : (s.setI w).v = s.v := rfl
@[simp] theorem State.setI_i (s : State) (w : Word) : (s.setI w).i = w := rfl
@[simp] theorem State.setI_pc (s : State) (w : Word) : (s.setI w).pc = s.pc := rfl
@[simp] theorem State.setI_dt (s : State) (w : Word) : (s.setI w).dt = s.dt := rfl
@[simp] theorem State.setI_st (s : State) (w : Word) : (s.setI w).st = s.st := rfl
@[simp] theorem State.setI_stack (s : State) (w : Word) : (s.setI w).stack = s.stack := rfl
@[simp] theorem State.setI_sp (s : State) (w : Word) : (s.setI w).sp = s.sp := rfl
@[simp] theorem State.setI_fb (s : State) (w : Word) : (s.setI w).fb = s.fb := rfl
@[simp] theorem State.setI_keys (s : State) (w : Word) : (s.setI w).keys = s.keys := rfl
@[simp] theorem State.setI_wait (s : State) (w : Word) : (s.setI w).wait = s.wait := rfl
@[simp] theorem State.setI_fault (s : State) (w : Word) : (s.setI w).fault = s.fault := rfl
@[simp] theorem State.setI_rng (s : State) (w : Word) : (s.setI w).rng = s.rng := rfl
@[simp] theorem State.setI_policy (s : State) (w : Word) : (s.setI w).policy = s.policy := rfl
@[simp] theorem State.setI_report (s : State) (w : Word) : (s.setI w).report = s.report := rfl

/-! `State.setPc` -/

@[simp] theorem State.setPc_mem (s : State) (w : Word) : (s.setPc w).mem = s.mem := rfl
@[simp] theorem State.setPc_v (s : State) (w : Word) : (s.setPc w).v = s.v := rfl
@[simp] theorem State.setPc_i (s : State) (w : Word) : (s.setPc w).i = s.i := rfl
@[simp] theorem State.setPc_pc (s : State) (w : Word) : (s.setPc w).pc = w := rfl
@[simp] theorem State.setPc_dt (s : State) (w : Word) : (s.setPc w).dt = s.dt := rfl
@[simp] theorem State.setPc_st (s : State) (w : Word) : (s.setPc w).st = s.st := rfl
@[simp] theorem State.setPc_stack (s : State) (w : Word) : (s.setPc w).stack = s.stack := rfl
@[simp] theorem State.setPc_sp (s : State) (w : Word) : (s.setPc w).sp = s.sp := rfl
@[simp] theorem State.setPc_fb (s : State) (w : Word) : (s.setPc w).fb = s.fb := rfl
@[simp] theorem State.setPc_keys (s : State) (w : Word) : (s.setPc w).keys = s.keys := rfl
@[simp] theorem State.setPc_wait (s : State) (w : Word) : (s.setPc w).wait = s.wait := rfl
@[simp] theorem State.setPc_fault (s : State) (w : Word) : (s.setPc w).fault = s.fault := rfl
@[simp] theorem State.setPc_rng (s : State) (w : Word) : (s.setPc w).rng = s.rng := rfl
@[simp] theorem State.setPc_policy (s : State) (w : Word) : (s.setPc w).policy = s.policy := rfl
@[simp] theorem State.setPc_report (s : State) (w : Word) : (s.setPc w).report = s.report := rfl

/-! `State.setDt` -/

@[simp] theorem State.setDt_mem (s : State) (b : Byte) : (s.setDt b).mem = s.mem := rfl
@[simp] theorem State.setDt_v (s : State) (b : Byte) : (s.setDt b).v = s.v := rfl
@[simp] theorem State.setDt_i (s : State) (b : Byte) : (s.setDt b).i = s.i := rfl
@[simp] theorem State.setDt_pc (s : State) (b : Byte) : (s.setDt b).pc = s.pc := rfl
@[simp] theorem State.setDt_dt (s : State) (b : Byte) : (s.setDt b).dt = b := rfl
@[simp] theorem State.setDt_st (s : State) (b : Byte) : (s.setDt b).st = s.st := rfl
@[simp] theorem State.setDt_stack (s : State) (b : Byte) : (s.setDt b).stack = s.stack := rfl
@[simp] theorem State.setDt_sp (s : State) (b : Byte) : (s.setDt b).sp = s.sp := rfl
@[simp] theorem State.setDt_fb (s : State) (b : Byte) : (s.setDt b).fb = s.fb := rfl
@[simp] theorem State.setDt_keys (s : State) (b : Byte) : (s.setDt b).keys = s.keys := rfl
@[simp] theorem State.setDt_wait (s : State) (b : Byte) : (s.setDt b).wait = s.wait := rfl
@[simp] theorem State.setDt_fault (s : State) (b : Byte) : (s.setDt b).fault = s.fault := rfl
@[simp] theorem State.setDt_rng (s : State) (b : Byte) : (s.setDt b).rng = s.rng := rfl
@[simp] theorem State.setDt_policy (s : State) (b : Byte) : (s.setDt b).policy = s.policy := rfl
@[simp] theorem State.setDt_report (s : State) (b : Byte) : (s.setDt b).report = s.report := rfl

/-! `State.setSt` -/

@[simp] theorem State.setSt_mem (s : State) (b : Byte) : (s.setSt b).mem = s.mem := rfl
@[simp] theorem State.setSt_v (s : State) (b : Byte) : (s.setSt b).v = s.v := rfl
@[simp] theorem State.setSt_i (s : State) (b : Byte) : (s.setSt b).i = s.i := rfl
@[simp] theorem State.setSt_pc (s : State) (b : Byte) : (s.setSt b).pc = s.pc := rfl
@[simp] theorem State.setSt_dt (s : State) (b : Byte) : (s.setSt b).dt = s.dt := rfl
@[simp] theorem State.setSt_st (s : State) (b : Byte) : (s.setSt b).st = b := rfl
@[simp] theorem State.setSt_stack (s : State) (b : Byte) : (s.setSt b).stack = s.stack := rfl
@[simp] theorem State.setSt_sp (s : State) (b : Byte) : (s.setSt b).sp = s.sp := rfl
@[simp] theorem State.setSt_fb (s : State) (b : Byte) : (s.setSt b).fb = s.fb := rfl
@[simp] theorem State.setSt_keys (s : State) (b : Byte) : (s.setSt b).keys = s.keys := rfl
@[simp] theorem State.setSt_wait (s : State) (b : Byte) : (s.setSt b).wait = s.wait := rfl
@[simp] theorem State.setSt_fault (s : State) (b : Byte) : (s.setSt b).fault = s.fault := rfl
@[simp] theorem State.setSt_rng (s : State) (b : Byte) : (s.setSt b).rng = s.rng := rfl
@[simp] theorem State.setSt_policy (s : State) (b : Byte) : (s.setSt b).policy = s.policy := rfl
@[simp] theorem State.setSt_report (s : State) (b : Byte) : (s.setSt b).report = s.report := rfl

/-! `State.setWait` -/

@[simp] theorem State.setWait_mem (s : State) (w : Wait) : (s.setWait w).mem = s.mem := rfl
@[simp] theorem State.setWait_v (s : State) (w : Wait) : (s.setWait w).v = s.v := rfl
@[simp] theorem State.setWait_i (s : State) (w : Wait) : (s.setWait w).i = s.i := rfl
@[simp] theorem State.setWait_pc (s : State) (w : Wait) : (s.setWait w).pc = s.pc := rfl
@[simp] theorem State.setWait_dt (s : State) (w : Wait) : (s.setWait w).dt = s.dt := rfl
@[simp] theorem State.setWait_st (s : State) (w : Wait) : (s.setWait w).st = s.st := rfl
@[simp] theorem State.setWait_stack (s : State) (w : Wait) : (s.setWait w).stack = s.stack := rfl
@[simp] theorem State.setWait_sp (s : State) (w : Wait) : (s.setWait w).sp = s.sp := rfl
@[simp] theorem State.setWait_fb (s : State) (w : Wait) : (s.setWait w).fb = s.fb := rfl
@[simp] theorem State.setWait_keys (s : State) (w : Wait) : (s.setWait w).keys = s.keys := rfl
@[simp] theorem State.setWait_wait (s : State) (w : Wait) : (s.setWait w).wait = w := rfl
@[simp] theorem State.setWait_fault (s : State) (w : Wait) : (s.setWait w).fault = s.fault := rfl
@[simp] theorem State.setWait_rng (s : State) (w : Wait) : (s.setWait w).rng = s.rng := rfl
@[simp] theorem State.setWait_policy (s : State) (w : Wait) : (s.setWait w).policy = s.policy := rfl
@[simp] theorem State.setWait_report (s : State) (w : Wait) : (s.setWait w).report = s.report := rfl

/-! `State.advance` -/

@[simp] theorem State.advance_mem (s : State) : (s.advance).mem = s.mem := rfl
@[simp] theorem State.advance_v (s : State) : (s.advance).v = s.v := rfl
@[simp] theorem State.advance_i (s : State) : (s.advance).i = s.i := rfl
@[simp] theorem State.advance_pc (s : State) : (s.advance).pc = s.pc + 2 := rfl
@[simp] theorem State.advance_dt (s : State) : (s.advance).dt = s.dt := rfl
@[simp] theorem State.advance_st (s : State) : (s.advance).st = s.st := rfl
@[simp] theorem State.advance_stack (s : State) : (s.advance).stack = s.stack := rfl
@[simp] theorem State.advance_sp (s : State) : (s.advance).sp = s.sp := rfl
@[simp] theorem State.advance_fb (s : State) : (s.advance).fb = s.fb := rfl
@[simp] theorem State.advance_keys (s : State) : (s.advance).keys = s.keys := rfl
@[simp] theorem State.advance_wait (s : State) : (s.advance).wait = s.wait := rfl
@[simp] theorem State.advance_fault (s : State) : (s.advance).fault = s.fault := rfl
@[simp] theorem State.advance_rng (s : State) : (s.advance).rng = s.rng := rfl
@[simp] theorem State.advance_policy (s : State) : (s.advance).policy = s.policy := rfl
@[simp] theorem State.advance_report (s : State) : (s.advance).report = none := rfl

/-! `State.store` -/

@[simp] theorem State.store_mem (s : State) (a : Nat) (l : List Byte)
    : (s.store a l).mem = Memory.writeList s.mem a l := rfl
@[simp] theorem State.store_v (s : State) (a : Nat) (l : List Byte) : (s.store a l).v = s.v := rfl
@[simp] theorem State.store_i (s : State) (a : Nat) (l : List Byte) : (s.store a l).i = s.i := rfl
@[simp] theorem State.store_pc (s : State) (a : Nat) (l : List Byte) : (s.store a l).pc = s.pc := rfl
@[simp] theorem State.store_dt (s : State) (a : Nat) (l : List Byte) : (s.store a l).dt = s.dt := rfl
@[simp] theorem State.store_st (s : State) (a : Nat) (l : List Byte) : (s.store a l).st = s.st := rfl
@[simp] theorem State.store_stack (s : State) (a : Nat) (l : List Byte) : (s.store a l).stack = s.stack := rfl
@[simp] theorem State.store_sp (s : State) (a : Nat) (l : List Byte) : (s.store a l).sp = s.sp := rfl
@[simp] theorem State.store_fb (s : State) (a : Nat) (l : List Byte) : (s.store a l).fb = s.fb := rfl
@[simp] theorem State.store_keys (s : State) (a : Nat) (l : List Byte) : (s.store a l).keys = s.keys := rfl
@[simp] theorem State.store_wait (s : State) (a : Nat) (l : List Byte) : (s.store a l).wait = s.wait := rfl
@[simp] theorem State.store_fault (s : State) (a : Nat) (l : List Byte) : (s.store a l).fault = s.fault := rfl
@[simp] theorem State.store_rng (s : State) (a : Nat) (l : List Byte) : (s.store a l).rng = s.rng := rfl
@[simp] theorem State.store_policy (s : State) (a : Nat) (l : List Byte) : (s.store a l).policy = s.policy := rfl
@[simp] theorem State.store_report (s : State) (a : Nat) (l : List Byte) : (s.store a l).report = s.report := rfl

/-! `State.raise` -/

@[simp] theorem State.raise_mem (s : State) (f : CoreFault) : (s.raise f).mem = s.mem := rfl
@[simp] theorem State.raise_v (s : State) (f : CoreFault) : (s.raise f).v = s.v := rfl
@[simp] theorem State.raise_i (s : State) (f : CoreFault) : (s.raise f).i = s.i := rfl
@[simp] theorem State.raise_pc (s : State) (f : CoreFault) : (s.raise f).pc = s.pc := rfl
@[simp] theorem State.raise_dt (s : State) (f : CoreFault) : (s.raise f).dt = s.dt := rfl
@[simp] theorem State.raise_st (s : State) (f : CoreFault) : (s.raise f).st = s.st := rfl
@[simp] theorem State.raise_stack (s : State) (f : CoreFault) : (s.raise f).stack = s.stack := rfl
@[simp] theorem State.raise_sp (s : State) (f : CoreFault) : (s.raise f).sp = s.sp := rfl
@[simp] theorem State.raise_fb (s : State) (f : CoreFault) : (s.raise f).fb = s.fb := rfl
@[simp] theorem State.raise_keys (s : State) (f : CoreFault) : (s.raise f).keys = s.keys := rfl
@[simp] theorem State.raise_wait (s : State) (f : CoreFault) : (s.raise f).wait = s.wait := rfl
@[simp] theorem State.raise_fault (s : State) (f : CoreFault) : (s.raise f).fault = some f := rfl
@[simp] theorem State.raise_rng (s : State) (f : CoreFault) : (s.raise f).rng = s.rng := rfl
@[simp] theorem State.raise_policy (s : State) (f : CoreFault) : (s.raise f).policy = s.policy := rfl
@[simp] theorem State.raise_report (s : State) (f : CoreFault) : (s.raise f).report = s.report := rfl

/-! `State.draw` -/

@[simp] theorem State.draw_mem (s : State) : (s.draw).mem = s.mem := rfl
@[simp] theorem State.draw_v (s : State) : (s.draw).v = s.v := rfl
@[simp] theorem State.draw_i (s : State) : (s.draw).i = s.i := rfl
@[simp] theorem State.draw_pc (s : State) : (s.draw).pc = s.pc := rfl
@[simp] theorem State.draw_dt (s : State) : (s.draw).dt = s.dt := rfl
@[simp] theorem State.draw_st (s : State) : (s.draw).st = s.st := rfl
@[simp] theorem State.draw_stack (s : State) : (s.draw).stack = s.stack := rfl
@[simp] theorem State.draw_sp (s : State) : (s.draw).sp = s.sp := rfl
@[simp] theorem State.draw_fb (s : State) : (s.draw).fb = s.fb := rfl
@[simp] theorem State.draw_keys (s : State) : (s.draw).keys = s.keys := rfl
@[simp] theorem State.draw_wait (s : State) : (s.draw).wait = s.wait := rfl
@[simp] theorem State.draw_fault (s : State) : (s.draw).fault = s.fault := rfl
@[simp] theorem State.draw_rng (s : State) : (s.draw).rng = { s.rng with drawn := s.rng.drawn + 1 } := rfl
@[simp] theorem State.draw_policy (s : State) : (s.draw).policy = s.policy := rfl
@[simp] theorem State.draw_report (s : State) : (s.draw).report = s.report := rfl

/-! `State.setFb` -/

@[simp] theorem State.setFb_mem (s : State) (fb : Framebuffer) : (s.setFb fb).mem = s.mem := rfl
@[simp] theorem State.setFb_v (s : State) (fb : Framebuffer) : (s.setFb fb).v = s.v := rfl
@[simp] theorem State.setFb_i (s : State) (fb : Framebuffer) : (s.setFb fb).i = s.i := rfl
@[simp] theorem State.setFb_pc (s : State) (fb : Framebuffer) : (s.setFb fb).pc = s.pc := rfl
@[simp] theorem State.setFb_dt (s : State) (fb : Framebuffer) : (s.setFb fb).dt = s.dt := rfl
@[simp] theorem State.setFb_st (s : State) (fb : Framebuffer) : (s.setFb fb).st = s.st := rfl
@[simp] theorem State.setFb_stack (s : State) (fb : Framebuffer) : (s.setFb fb).stack = s.stack := rfl
@[simp] theorem State.setFb_sp (s : State) (fb : Framebuffer) : (s.setFb fb).sp = s.sp := rfl
@[simp] theorem State.setFb_fb (s : State) (fb : Framebuffer) : (s.setFb fb).fb = fb := rfl
@[simp] theorem State.setFb_keys (s : State) (fb : Framebuffer) : (s.setFb fb).keys = s.keys := rfl
@[simp] theorem State.setFb_wait (s : State) (fb : Framebuffer) : (s.setFb fb).wait = s.wait := rfl
@[simp] theorem State.setFb_fault (s : State) (fb : Framebuffer) : (s.setFb fb).fault = s.fault := rfl
@[simp] theorem State.setFb_rng (s : State) (fb : Framebuffer) : (s.setFb fb).rng = s.rng := rfl
@[simp] theorem State.setFb_policy (s : State) (fb : Framebuffer) : (s.setFb fb).policy = s.policy := rfl
@[simp] theorem State.setFb_report (s : State) (fb : Framebuffer) : (s.setFb fb).report = s.report := rfl

/-! `State.setKeys` -/

@[simp] theorem State.setKeys_mem (s : State) (keys : Vector Bool 16) : (s.setKeys keys).mem = s.mem := rfl
@[simp] theorem State.setKeys_v (s : State) (keys : Vector Bool 16) : (s.setKeys keys).v = s.v := rfl
@[simp] theorem State.setKeys_i (s : State) (keys : Vector Bool 16) : (s.setKeys keys).i = s.i := rfl
@[simp] theorem State.setKeys_pc (s : State) (keys : Vector Bool 16) : (s.setKeys keys).pc = s.pc := rfl
@[simp] theorem State.setKeys_dt (s : State) (keys : Vector Bool 16) : (s.setKeys keys).dt = s.dt := rfl
@[simp] theorem State.setKeys_st (s : State) (keys : Vector Bool 16) : (s.setKeys keys).st = s.st := rfl
@[simp] theorem State.setKeys_stack (s : State) (keys : Vector Bool 16) : (s.setKeys keys).stack = s.stack := rfl
@[simp] theorem State.setKeys_sp (s : State) (keys : Vector Bool 16) : (s.setKeys keys).sp = s.sp := rfl
@[simp] theorem State.setKeys_fb (s : State) (keys : Vector Bool 16) : (s.setKeys keys).fb = s.fb := rfl
@[simp] theorem State.setKeys_keys (s : State) (keys : Vector Bool 16) : (s.setKeys keys).keys = keys := rfl
@[simp] theorem State.setKeys_wait (s : State) (keys : Vector Bool 16) : (s.setKeys keys).wait = s.wait := rfl
@[simp] theorem State.setKeys_fault (s : State) (keys : Vector Bool 16) : (s.setKeys keys).fault = s.fault := rfl
@[simp] theorem State.setKeys_rng (s : State) (keys : Vector Bool 16) : (s.setKeys keys).rng = s.rng := rfl
@[simp] theorem State.setKeys_policy (s : State) (keys : Vector Bool 16)
    : (s.setKeys keys).policy = s.policy := rfl
@[simp] theorem State.setKeys_report (s : State) (keys : Vector Bool 16)
    : (s.setKeys keys).report = s.report := rfl

/-! `State.tickTimers` -/

@[simp] theorem State.tickTimers_mem (s : State) : (s.tickTimers).mem = s.mem := rfl
@[simp] theorem State.tickTimers_v (s : State) : (s.tickTimers).v = s.v := rfl
@[simp] theorem State.tickTimers_i (s : State) : (s.tickTimers).i = s.i := rfl
@[simp] theorem State.tickTimers_pc (s : State) : (s.tickTimers).pc = s.pc := rfl
@[simp] theorem State.tickTimers_dt (s : State) : (s.tickTimers).dt = countDown s.dt := rfl
@[simp] theorem State.tickTimers_st (s : State) : (s.tickTimers).st = countDown s.st := rfl
@[simp] theorem State.tickTimers_stack (s : State) : (s.tickTimers).stack = s.stack := rfl
@[simp] theorem State.tickTimers_sp (s : State) : (s.tickTimers).sp = s.sp := rfl
@[simp] theorem State.tickTimers_fb (s : State) : (s.tickTimers).fb = s.fb := rfl
@[simp] theorem State.tickTimers_keys (s : State) : (s.tickTimers).keys = s.keys := rfl
@[simp] theorem State.tickTimers_wait (s : State) : (s.tickTimers).wait = s.wait := rfl
@[simp] theorem State.tickTimers_fault (s : State) : (s.tickTimers).fault = s.fault := rfl
@[simp] theorem State.tickTimers_rng (s : State) : (s.tickTimers).rng = s.rng := rfl
@[simp] theorem State.tickTimers_policy (s : State) : (s.tickTimers).policy = s.policy := rfl
@[simp] theorem State.tickTimers_report (s : State) : (s.tickTimers).report = s.report := rfl

end Sys2Proof.Machine
end

