-- ==== Sys2Proof/Laws/Memory.lean ====
section
/-! SUPPORT. The laws of memory: every operation keeps the canonical form, a read sees the last write to its
cell, and a write leaves every other cell alone (20_memory.md R31, R32, R39). -/

namespace Sys2Proof.Machine

theorem maskAddr_lt (a : Nat) : maskAddr a < 4096 := Nat.mod_lt _ (by decide)

theorem maskAddr_of_lt {a : Nat} (h : a < 4096) : maskAddr a = a := Nat.mod_eq_of_lt h

/-- The mask of the spec is the remainder the model takes. -/
theorem maskAddr_eq_and (a : Nat) : maskAddr a = a &&& 0x0FFF :=
  (Nat.and_two_pow_sub_one_eq_mod a 12).symm

@[simp] theorem maskAddr_maskAddr (a : Nat) : maskAddr (maskAddr a) = maskAddr a :=
  maskAddr_of_lt (maskAddr_lt a)

@[simp] theorem Memory.cell_nil (a : Nat) : Memory.cell [] a = Memory.unlisted a := rfl

@[simp] theorem Memory.cell_cons (k : Nat) (b : Byte) (m : Memory) (a : Nat) :
    Memory.cell ((k, b) :: m) a = if k = a then b else Memory.cell m a := rfl

/-- In a canonical list from `lo` on, a cell below `lo` is not listed. -/
theorem Memory.cell_of_lt {m : Memory} {lo a : Nat} (h : Memory.wfFrom lo m = true) (ha : a < lo) :
    Memory.cell m a = Memory.unlisted a := by
  induction m generalizing lo with
  | nil => rfl
  | cons e m ih =>
    obtain ⟨k, b⟩ := e
    simp only [Memory.wfFrom, Bool.and_eq_true, decide_eq_true_eq] at h
    rw [Memory.cell_cons, if_neg (by omega), ih h.2 (by omega)]

theorem Memory.wfFrom_mono {m : Memory} {lo lo' : Nat} (hl : lo' ≤ lo) (h : Memory.wfFrom lo m = true) :
    Memory.wfFrom lo' m = true := by
  cases m with
  | nil => rfl
  | cons e m =>
    obtain ⟨k, b⟩ := e
    simp only [Memory.wfFrom, Bool.and_eq_true, decide_eq_true_eq] at h ⊢
    exact ⟨⟨⟨by omega, h.1.1.2⟩, h.1.2⟩, h.2⟩

theorem Memory.place_wfFrom {m : Memory} {lo a : Nat} {b : Byte} (hlo : lo ≤ a) (ha : a < 4096)
    (h : Memory.wfFrom (a + 1) m = true) : Memory.wfFrom lo (Memory.place a b m) = true := by
  unfold Memory.place
  split
  · exact Memory.wfFrom_mono (by omega) h
  · rename_i hb
    have hc : a < Config.memSize := ha
    simp [Memory.wfFrom, hlo, hc, hb, h]

theorem Memory.setCell_wfFrom {m : Memory} {lo a : Nat} {b : Byte} (hlo : lo ≤ a) (ha : a < 4096)
    (h : Memory.wfFrom lo m = true) : Memory.wfFrom lo (Memory.setCell m a b) = true := by
  induction m generalizing lo with
  | nil => exact Memory.place_wfFrom hlo ha rfl
  | cons e m ih =>
    obtain ⟨k, c⟩ := e
    have h' := h
    simp only [Memory.wfFrom, Bool.and_eq_true, decide_eq_true_eq] at h'
    unfold Memory.setCell
    split
    · refine Memory.place_wfFrom hlo ha ?_
      simp only [Memory.wfFrom, Bool.and_eq_true, decide_eq_true_eq]
      exact ⟨⟨⟨by omega, h'.1.1.2⟩, h'.1.2⟩, h'.2⟩
    · split
      · rename_i hk
        subst hk
        exact Memory.place_wfFrom hlo ha h'.2
      · simp only [Memory.wfFrom, Bool.and_eq_true, decide_eq_true_eq]
        exact ⟨h'.1, ih (by omega) h'.2⟩

/-- A write keeps the canonical form. -/
theorem Memory.write_wf {m : Memory} (a : Nat) (b : Byte) (h : Memory.wf m = true) :
    Memory.wf (Memory.write m a b) = true :=
  Memory.setCell_wfFrom (Nat.zero_le _) (maskAddr_lt a) h

/-- Writing a string of bytes keeps the canonical form. -/
theorem Memory.writeList_wf {m : Memory} (a : Nat) (l : List Byte) (h : Memory.wf m = true) :
    Memory.wf (Memory.writeList m a l) = true := by
  induction l generalizing m a with
  | nil => exact h
  | cons b l ih => exact ih (a + 1) (Memory.write_wf a b h)

theorem Memory.cell_place_same {m : Memory} {a : Nat} {b : Byte} (h : Memory.cell m a = Memory.unlisted a) :
    Memory.cell (Memory.place a b m) a = b := by
  unfold Memory.place
  split
  · rename_i hb
    rw [h, hb]
  · simp

theorem Memory.cell_place_other {m : Memory} {a c : Nat} {b : Byte} (h : c ≠ a) :
    Memory.cell (Memory.place a b m) c = Memory.cell m c := by
  unfold Memory.place
  split
  · rfl
  · rw [Memory.cell_cons, if_neg (Ne.symm h)]

theorem Memory.cell_setCell_same {m : Memory} {lo a : Nat} {b : Byte} (hm : Memory.wfFrom lo m = true) :
    Memory.cell (Memory.setCell m a b) a = b := by
  induction m generalizing lo with
  | nil => exact Memory.cell_place_same rfl
  | cons e m ih =>
    obtain ⟨k, c⟩ := e
    have h' := hm
    simp only [Memory.wfFrom, Bool.and_eq_true, decide_eq_true_eq] at h'
    unfold Memory.setCell
    split
    · refine Memory.cell_place_same ?_
      rw [Memory.cell_cons, if_neg (by omega), Memory.cell_of_lt h'.2 (by omega)]
    · split
      · rename_i hk
        subst hk
        exact Memory.cell_place_same (Memory.cell_of_lt h'.2 (by omega))
      · rename_i hk
        rw [Memory.cell_cons, if_neg (Ne.symm hk), ih h'.2]

theorem Memory.cell_setCell_other (m : Memory) {a c : Nat} {b : Byte} (h : c ≠ a) :
    Memory.cell (Memory.setCell m a b) c = Memory.cell m c := by
  induction m with
  | nil => exact Memory.cell_place_other h
  | cons e m ih =>
    obtain ⟨k, d⟩ := e
    unfold Memory.setCell
    split
    · exact Memory.cell_place_other h
    · split
      · rename_i hk
        subst hk
        rw [Memory.cell_place_other h, Memory.cell_cons, if_neg (Ne.symm h)]
      · simp [ih]

/-- A read sees the write to its own cell, whatever the two addresses above the mask. -/
theorem Memory.read_write_same {m : Memory} {a c : Nat} (b : Byte) (hm : Memory.wf m = true)
    (h : maskAddr c = maskAddr a) : Memory.read (Memory.write m a b) c = b := by
  unfold Memory.read Memory.write
  rw [h, Memory.cell_setCell_same hm]

/-- A write leaves every other cell alone. -/
theorem Memory.read_write_other (m : Memory) {a c : Nat} (b : Byte) (h : maskAddr c ≠ maskAddr a) :
    Memory.read (Memory.write m a b) c = Memory.read m c := Memory.cell_setCell_other m h

/-- Addresses less than a memory's length apart have different cells. -/
theorem maskAddr_add_ne (a : Nat) {j k : Nat} (hj : j < 4096) (hk : k < 4096) (h : j ≠ k) :
    maskAddr (a + j) ≠ maskAddr (a + k) := by
  have e : ∀ n, maskAddr n = n % 4096 := fun _ => rfl
  rw [e, e]
  omega

/-- A byte outside the cells a string is written to is left alone. -/
theorem Memory.read_writeList_other (m : Memory) (a c : Nat) (l : List Byte)
    (h : ∀ k, k < l.length → maskAddr c ≠ maskAddr (a + k)) :
    Memory.read (Memory.writeList m a l) c = Memory.read m c := by
  induction l generalizing m a with
  | nil => rfl
  | cons b l ih =>
    unfold Memory.writeList
    rw [ih, Memory.read_write_other]
    · exact h 0 (by simp)
    · intro k hk
      have h1 := h (k + 1) (by simpa using hk)
      rwa [show a + (k + 1) = a + 1 + k by omega] at h1

/-- Each byte of a written string, no longer than memory, is read back at its own offset. -/
theorem Memory.read_writeList_same {m : Memory} (a k : Nat) (l : List Byte) (hm : Memory.wf m = true)
    (hl : l.length ≤ 4096) (hk : k < l.length) :
    Memory.read (Memory.writeList m a l) (a + k) = l[k] := by
  induction l generalizing m a k with
  | nil => simp at hk
  | cons b l ih =>
    simp only [List.length_cons] at hl hk
    unfold Memory.writeList
    cases k with
    | zero =>
      rw [Memory.read_writeList_other]
      · simpa using Memory.read_write_same b hm rfl
      · intro j hj
        rw [show a + 1 + j = a + (j + 1) by omega]
        exact maskAddr_add_ne a (by omega) (by omega) (by omega)
    | succ k =>
      rw [show a + (k + 1) = a + 1 + k by omega, ih (a + 1) k (Memory.write_wf a b hm) (by omega) (by omega)]
      rfl

@[simp] theorem Memory.readList_length (m : Memory) (a n : Nat) : (Memory.readList m a n).length = n := by
  induction n generalizing a with
  | zero => rfl
  | succ n ih => simp [Memory.readList, ih]

/-- Byte `k` of a string read from `a` on is the byte at `a + k`. -/
theorem Memory.getElem_readList (m : Memory) (a n k : Nat) (h : k < (Memory.readList m a n).length) :
    (Memory.readList m a n)[k] = Memory.read m (a + k) := by
  induction n generalizing a k with
  | zero => simp at h
  | succ n ih =>
    cases k with
    | zero => rfl
    | succ k =>
      simp only [Memory.readList, List.getElem_cons_succ]
      rw [ih, show a + 1 + k = a + (k + 1) by omega]

/-- Reset memory, which lists nothing, is canonical. -/
theorem State.reset_mem_wf : Memory.wf State.reset.mem = true := rfl

/-- Storing through the state keeps memory canonical. -/
theorem State.store_wf {s : State} (a : Nat) (l : List Byte) (h : Memory.wf s.mem = true) :
    Memory.wf (s.store a l).mem = true := Memory.writeList_wf a l h

end Sys2Proof.Machine
end

