-- ==== Sys2Proof/Laws/Ops.lean ====
section
/-! SUPPORT. One lemma per shared operation over registers, the stack, the framebuffer, the keys and the
fault latch: what it can do. -/

namespace Sys2Proof.Machine

/-! Registers -/

@[simp] theorem State.reg_setReg_same (s : State) (r : Nibble) (b : Byte) : (s.setReg r b).reg r = b := by
  simp [State.reg, State.setReg]

@[simp] theorem State.reg_setReg_other (s : State) {r q : Nibble} (b : Byte) (h : q ≠ r) :
    (s.setReg r b).reg q = s.reg q := by
  have hn : r.toNat ≠ q.toNat := fun e => h (BitVec.eq_of_toNat_eq e.symm)
  simp [State.reg, State.setReg, hn]

theorem State.reg_setReg (s : State) (r q : Nibble) (b : Byte) :
    (s.setReg r b).reg q = if q = r then b else s.reg q := by
  split
  · rename_i h
    rw [h, State.reg_setReg_same]
  · rename_i h
    exact State.reg_setReg_other s b h

/-- A register is read from `v` alone. -/
theorem State.reg_congr {s t : State} (h : t.v = s.v) (r : Nibble) : t.reg r = s.reg r := by
  simp [State.reg, h]

/-- A byte is read from `mem` alone. -/
theorem State.memRead_congr {s t : State} (h : t.mem = s.mem) (a : Nat) : t.memRead a = s.memRead a := by
  simp [State.memRead, h]

/-- After a flag write VF holds the flag. -/
@[simp] theorem State.setRegFlag_vf (s : State) (x : Nibble) (b : Byte) (c : Bool) :
    (s.setRegFlag x b c).reg vf = flagByte c := by
  simp [State.setRegFlag]

/-- The result stands in `V[x]` when `x` is not VF. -/
theorem State.setRegFlag_dest (s : State) {x : Nibble} (b : Byte) (c : Bool) (h : x ≠ vf) :
    (s.setRegFlag x b c).reg x = b := by
  simp [State.setRegFlag, State.reg_setReg_other _ _ h]

/-- Every register but `V[x]` and VF is left alone. -/
theorem State.setRegFlag_other (s : State) {x r : Nibble} (b : Byte) (c : Bool) (hx : r ≠ x) (hf : r ≠ vf) :
    (s.setRegFlag x b c).reg r = s.reg r := by
  simp [State.setRegFlag, State.reg_setReg_other _ _ hx, State.reg_setReg_other _ _ hf]

/-- Writing a string of registers from `k` on: register `j` takes byte `j - k` of the string if it has one. -/
theorem getElem_writeRegs (v : Vector Byte 16) (k j : Nat) (l : List Byte) (hj : j < 16) :
    (writeRegs v k l)[j] = if h : k ≤ j ∧ j - k < l.length then l[j - k]'h.2 else v[j] := by
  induction l generalizing v k with
  | nil => simp [writeRegs]
  | cons b l ih =>
    unfold writeRegs
    rw [ih]
    by_cases hkj : k = j
    · subst hkj
      simp
    · by_cases h : k + 1 ≤ j ∧ j - (k + 1) < l.length
      · rw [dif_pos h, dif_pos ⟨by omega, by simp only [List.length_cons]; omega⟩]
        obtain ⟨m, hm⟩ : ∃ m, j - k = m + 1 := ⟨j - k - 1, by omega⟩
        simp [hm, show j - (k + 1) = m by omega]
      · rw [dif_neg h, dif_neg (by simp only [List.length_cons]; omega)]
        simp [hkj]

/-! The program counter -/

/-- A skip changes `PC` or nothing. -/
theorem State.skipIf_eq (s : State) (c : Bool) :
    s.skipIf c = s.setPc (if c then s.pc + 2 else s.pc) := by
  cases c <;> rfl

/-! The stack -/

/-- A push succeeds below capacity: it writes one entry and counts it. -/
theorem State.push?_of_lt (s : State) (w : Word) (h : s.sp.val < 16) :
    s.push? w = some { s with stack := s.stack.set s.sp.val w h, sp := ⟨s.sp.val + 1, by omega⟩ } := by
  simp [State.push?, h]

/-- A push fails at capacity. -/
theorem State.push?_of_full (s : State) (w : Word) (h : s.sp.val = 16) : s.push? w = none := by
  simp [State.push?, h]

/-- A pop succeeds when an entry is in use: it yields the newest and gives it back. -/
theorem State.pop?_of_pos (s : State) (h : 0 < s.sp.val) :
    s.pop? = some (s.stack[s.sp.val - 1]'(by omega), { s with sp := ⟨s.sp.val - 1, by omega⟩ }) := by
  simp [State.pop?, h]

/-- A pop fails when none is. -/
theorem State.pop?_of_empty (s : State) (h : s.sp.val = 0) : s.pop? = none := by
  simp [State.pop?, h]

/-- All a `CALL` can do. -/
theorem execCall_cases (nnn : Imm12) (s : State) :
    (s.sp.val = 16 ∧ execCall nnn s = .next (s.raise .stackOverflow)) ∨
    (∃ h : s.sp.val < 16, execCall nnn s = .next
      { s with stack := s.stack.set s.sp.val s.pc h, sp := ⟨s.sp.val + 1, by omega⟩, pc := zextNnn nnn }) := by
  rcases Nat.lt_or_ge s.sp.val 16 with h | h
  · refine .inr ⟨h, ?_⟩
    simp only [execCall, State.push?_of_lt s _ h]
    rfl
  · have h16 : s.sp.val = 16 := by omega
    refine .inl ⟨h16, ?_⟩
    simp only [execCall, State.push?_of_full s _ h16]

/-- All a `RET` can do. -/
theorem execRet_cases (ign : Nibble) (s : State) :
    (s.sp.val = 0 ∧ execRet ign s = .next (s.raise .stackUnderflow)) ∨
    (∃ h : 0 < s.sp.val, execRet ign s = .next
      { s with sp := ⟨s.sp.val - 1, by omega⟩, pc := s.stack[s.sp.val - 1]'(by omega) }) := by
  rcases Nat.eq_zero_or_pos s.sp.val with h | h
  · refine .inl ⟨h, ?_⟩
    simp only [execRet, State.pop?_of_empty s h]
  · refine .inr ⟨h, ?_⟩
    simp only [execRet, State.pop?_of_pos s h]
    rfl

/-! The framebuffer -/

theorem Framebuffer.pixel_clear (px : Fin 64) (py : Fin 32) :
    Framebuffer.pixel Framebuffer.clear px py = false := by
  simp [Framebuffer.pixel, Framebuffer.clear]

/-- A flip changes its own pixel and no other. -/
theorem Framebuffer.pixel_flip (fb : Framebuffer) (px qx : Fin 64) (py qy : Fin 32) :
    Framebuffer.pixel (Framebuffer.flip fb px py) qx qy =
      (Framebuffer.pixel fb qx qy ^^ decide ((qx, qy) = (px, py))) := by
  unfold Framebuffer.pixel Framebuffer.flip
  by_cases hy : py = qy
  · subst hy
    have h2 : (1#64 <<< px.val).getLsbD qx.val = decide (qx = px) := by
      have e : (qx = px) ↔ qx.val = px.val := Fin.ext_iff
      rw [BitVec.getLsbD_shiftLeft, BitVec.getLsbD_one, Bool.eq_iff_iff]
      simp only [Bool.and_eq_true, Bool.not_eq_true', decide_eq_true_eq, decide_eq_false_iff_not, e]
      omega
    rw [Vector.getElem_set_self, BitVec.getLsbD_xor, h2]
    simp
  · have hv : py.val ≠ qy.val := fun h => hy (Fin.ext h)
    simp [hv, Ne.symm hy]

/-- Two framebuffers with the same pixels are the same. -/
theorem Framebuffer.ext_pixel {a b : Framebuffer} (h : ∀ px py, a.pixel px py = b.pixel px py) : a = b := by
  apply Vector.ext
  intro py hpy
  apply BitVec.eq_of_getLsbD_eq
  intro px hpx
  exact h ⟨px, hpx⟩ ⟨py, hpy⟩

/-- Drawing a list of pixels flips a pixel once for each time it is listed. -/
theorem Framebuffer.pixel_plot (fb : Framebuffer) (hit : Bool) (l : List (Fin 64 × Fin 32))
    (px : Fin 64) (py : Fin 32) :
    Framebuffer.pixel (Framebuffer.plot fb hit l).1 px py =
      (Framebuffer.pixel fb px py ^^ decide (l.count (px, py) % 2 = 1)) := by
  induction l generalizing fb hit with
  | nil => simp [Framebuffer.plot]
  | cons q l ih =>
    obtain ⟨qx, qy⟩ := q
    rw [Framebuffer.plot, ih, Framebuffer.pixel_flip, Bool.xor_assoc, List.count_cons]
    congr 1
    by_cases e : (px, py) = (qx, qy)
    · rw [e]
      simp
      rcases Nat.mod_two_eq_zero_or_one (l.count (qx, qy)) with h | h <;> simp [h, Nat.add_mod]
    · have e' : ¬ (qx = px ∧ qy = py) := by
        rintro ⟨h1, h2⟩
        exact e (by rw [h1, h2])
      have e2 : ¬ (px = qx ∧ py = qy) := by
        rintro ⟨h1, h2⟩
        exact e (by rw [h1, h2])
      simp [e', e2]

/-- With no pixel listed twice, the collision flag says whether some listed pixel was on before. -/
theorem Framebuffer.plot_hit (fb : Framebuffer) (hit : Bool) (l : List (Fin 64 × Fin 32)) (h : l.Nodup) :
    (Framebuffer.plot fb hit l).2 = (hit || l.any (fun p => Framebuffer.pixel fb p.1 p.2)) := by
  induction l generalizing fb hit with
  | nil => simp [Framebuffer.plot]
  | cons q l ih =>
    obtain ⟨qx, qy⟩ := q
    rw [List.nodup_cons] at h
    rw [Framebuffer.plot, ih _ _ h.2, List.any_cons, Bool.or_assoc]
    congr 2
    rw [Bool.eq_iff_iff, List.any_eq_true, List.any_eq_true]
    refine exists_congr fun p => and_congr_right fun hp => ?_
    have hne : ¬ ((p.1, p.2) = (qx, qy)) := fun e => h.1 (by rw [← e]; exact hp)
    rw [Framebuffer.pixel_flip, decide_eq_false hne, Bool.xor_false]

/-! The keys -/

/-- When some key is down, the lowest one is found; when none is, none is. -/
theorem State.lowestKey_eq_some (s : State) (k : Nat) (hk : k < 16) (hd : s.keys[k] = true)
    (hl : ∀ j, (h : j < k) → s.keys[j] = false) : s.lowestKey = some (BitVec.ofNat 8 k) := by
  have : s.keys.toList.findIdx? id = some k := by
    rw [List.findIdx?_eq_some_iff_getElem]
    refine ⟨by simpa using hk, by simpa using hd, fun j hj => by simpa using hl j hj⟩
  simp [State.lowestKey, this]

theorem State.lowestKey_eq_none (s : State) (h : ∀ j, (h : j < 16) → s.keys[j] = false) :
    s.lowestKey = none := by
  have : s.keys.toList.findIdx? id = none := by
    rw [List.findIdx?_eq_none_iff]
    intro b hb
    obtain ⟨j, hj, rfl⟩ := List.getElem_of_mem hb
    have hj' : j < 16 := by simpa using hj
    simpa using h j hj'
  simp [State.lowestKey, this]

/-! The fault latch -/

/-- Under `halt` an unsupported word is latched. -/
theorem State.unsupported_halt (s : State) (w fa : Word) (h : s.policy = .halt) :
    s.unsupported w fa = s.raise (.unsupportedOpcode w fa) := by
  simp [State.unsupported, h]

/-- Under `skip` it is reported. -/
theorem State.unsupported_skip (s : State) (w fa : Word) (h : s.policy = .skip) :
    s.unsupported w fa = { s with report := some { word := w, pc := fa } } := by
  simp [State.unsupported, h]

end Sys2Proof.Machine
end

