-- ==== Sys2Proof/Laws/PerInstr.lean ====
section
/-! SUPPORT. The family of statements made once per instruction: the instruction's word selects the
instruction's own row of the opcode map (30_encoding.md R59). -/

namespace Sys2Proof.Laws.TableRow

/-- The word of `i` selects the row of `i`: "a word `w` selects the row when `w & mask = match`" (R59). -/
def Statement (i : Instr) : Prop := encode i &&& i.row.2 = i.row.1

/-- Format `Z` and `X`: every bit but those of `x` is fixed. -/
theorem key_row (op x : Nibble) (kk : Byte) (m : Word) (h : packXK op 0 kk = m) :
    packXK op x kk &&& 0xF0FF = m := by
  rw [show (0xF0FF : Word) = packXK 0xF 0 0xFF from rfl, packXK_and, ← h]
  congr 1
  · exact BitVec.and_allOnes
  · exact BitVec.and_zero
  · exact BitVec.and_allOnes

/-- Format `XK`: only `op` is fixed. -/
theorem imm_row (op x : Nibble) (kk : Byte) (m : Word) (h : packXK op 0 0 = m) :
    packXK op x kk &&& 0xF000 = m := by
  rw [show (0xF000 : Word) = packXK 0xF 0 0 from rfl, packXK_and, ← h]
  congr 1
  · exact BitVec.and_allOnes
  · exact BitVec.and_zero
  · exact BitVec.and_zero

/-- Format `A`: only `op` is fixed. -/
theorem addr_row (op : Nibble) (nnn : Imm12) (m : Word) (h : packA op 0 = m) :
    packA op nnn &&& 0xF000 = m := by
  rw [show (0xF000 : Word) = packA 0xF 0 from rfl, packA_and, ← h]
  congr 1
  · exact BitVec.and_allOnes
  · exact BitVec.and_zero

/-- Format `XY` in family 8: `op` and the key `n` are fixed. -/
theorem alu_row (x y n : Nibble) (m : Word) (h : packXYN 0x8 0 0 n = m) :
    packXYN 0x8 x y n &&& 0xF00F = m := by
  rw [show (0xF00F : Word) = packXYN 0xF 0 0 0xF from rfl, packXYN_and, ← h]
  congr 1
  · exact BitVec.and_zero
  · exact BitVec.and_zero
  · exact BitVec.and_allOnes

/-- Formats `XY` outside family 8 and `XYN`: only `op` is fixed. -/
theorem op_row (op x y n : Nibble) (m : Word) (h : packXYN op 0 0 0 = m) :
    packXYN op x y n &&& 0xF000 = m := by
  rw [show (0xF000 : Word) = packXYN 0xF 0 0 0 from rfl, packXYN_and, ← h]
  congr 1
  · exact BitVec.and_allOnes
  · exact BitVec.and_zero
  · exact BitVec.and_zero
  · exact BitVec.and_zero

theorem cls (x : Nibble) : Statement (.cls x) := key_row _ _ _ _ rfl
theorem ret (x : Nibble) : Statement (.ret x) := key_row _ _ _ _ rfl
theorem jp (nnn : Imm12) : Statement (.jp nnn) := addr_row _ _ _ rfl
theorem call (nnn : Imm12) : Statement (.call nnn) := addr_row _ _ _ rfl
theorem seImm (x : Nibble) (kk : Byte) : Statement (.seImm x kk) := imm_row _ _ _ _ rfl
theorem sneImm (x : Nibble) (kk : Byte) : Statement (.sneImm x kk) := imm_row _ _ _ _ rfl
theorem seReg (x y n : Nibble) : Statement (.seReg x y n) := op_row _ _ _ _ _ rfl
theorem ldImm (x : Nibble) (kk : Byte) : Statement (.ldImm x kk) := imm_row _ _ _ _ rfl
theorem addImm (x : Nibble) (kk : Byte) : Statement (.addImm x kk) := imm_row _ _ _ _ rfl
theorem ldReg (x y : Nibble) : Statement (.ldReg x y) := alu_row _ _ _ _ rfl
theorem orReg (x y : Nibble) : Statement (.orReg x y) := alu_row _ _ _ _ rfl
theorem andReg (x y : Nibble) : Statement (.andReg x y) := alu_row _ _ _ _ rfl
theorem xorReg (x y : Nibble) : Statement (.xorReg x y) := alu_row _ _ _ _ rfl
theorem addReg (x y : Nibble) : Statement (.addReg x y) := alu_row _ _ _ _ rfl
theorem sub (x y : Nibble) : Statement (.sub x y) := alu_row _ _ _ _ rfl
theorem shr (x y : Nibble) : Statement (.shr x y) := alu_row _ _ _ _ rfl
theorem subn (x y : Nibble) : Statement (.subn x y) := alu_row _ _ _ _ rfl
theorem shl (x y : Nibble) : Statement (.shl x y) := alu_row _ _ _ _ rfl
theorem sneReg (x y n : Nibble) : Statement (.sneReg x y n) := op_row _ _ _ _ _ rfl
theorem ldI (nnn : Imm12) : Statement (.ldI nnn) := addr_row _ _ _ rfl
theorem jpV0 (nnn : Imm12) : Statement (.jpV0 nnn) := addr_row _ _ _ rfl
theorem rnd (x : Nibble) (kk : Byte) : Statement (.rnd x kk) := imm_row _ _ _ _ rfl
theorem drw (x y n : Nibble) : Statement (.drw x y n) := op_row _ _ _ _ _ rfl
theorem skp (x : Nibble) : Statement (.skp x) := key_row _ _ _ _ rfl
theorem sknp (x : Nibble) : Statement (.sknp x) := key_row _ _ _ _ rfl
theorem ldVxDt (x : Nibble) : Statement (.ldVxDt x) := key_row _ _ _ _ rfl
theorem ldVxK (x : Nibble) : Statement (.ldVxK x) := key_row _ _ _ _ rfl
theorem ldDtVx (x : Nibble) : Statement (.ldDtVx x) := key_row _ _ _ _ rfl
theorem ldStVx (x : Nibble) : Statement (.ldStVx x) := key_row _ _ _ _ rfl
theorem addI (x : Nibble) : Statement (.addI x) := key_row _ _ _ _ rfl
theorem ldF (x : Nibble) : Statement (.ldF x) := key_row _ _ _ _ rfl
theorem ldB (x : Nibble) : Statement (.ldB x) := key_row _ _ _ _ rfl
theorem ldMemVx (x : Nibble) : Statement (.ldMemVx x) := key_row _ _ _ _ rfl
theorem ldVxMem (x : Nibble) : Statement (.ldVxMem x) := key_row _ _ _ _ rfl

end Sys2Proof.Laws.TableRow
end

