-- ==== Sys2Proof/Laws/Sprite.lean ====
section
/-! SUPPORT. The pixels a sprite lights: which they are, that none is listed twice, and what drawing them does
to each pixel (44_display.md R127, R129, R130). -/

namespace Sys2Proof.Machine

theorem mem_spriteRowPixels (x0 : Nat) (py : Fin 32) (row : Byte) (p : Fin 64 × Fin 32) :
    p ∈ spriteRowPixels x0 py row ↔
      ∃ c, c < 8 ∧ row.getLsbD (7 - c) = true ∧ p = (Fin.ofNat 64 (x0 + c), py) := by
  simp only [spriteRowPixels, List.mem_map, List.mem_filter, List.mem_range]
  constructor
  · rintro ⟨c, ⟨h1, h2⟩, rfl⟩
    exact ⟨c, h1, h2, rfl⟩
  · rintro ⟨c, h1, h2, rfl⟩
    exact ⟨c, ⟨h1, h2⟩, rfl⟩

/-- A sprite lights the pixel at row `r` and column offset `c` when that bit of that byte is 1. -/
theorem mem_spritePixels (x0 y : Nat) (rows : List Byte) (p : Fin 64 × Fin 32) :
    p ∈ spritePixels x0 y rows ↔ ∃ r c, ∃ h : r < rows.length, c < 8 ∧ rows[r].getLsbD (7 - c) = true ∧
      p = (Fin.ofNat 64 (x0 + c), Fin.ofNat 32 (y + r)) := by
  induction rows generalizing y with
  | nil => simp [spritePixels]
  | cons row rows ih =>
    rw [spritePixels, List.mem_append, mem_spriteRowPixels, ih]
    constructor
    · rintro (⟨c, h1, h2, h3⟩ | ⟨r, c, h, h1, h2, h3⟩)
      · exact ⟨0, c, by simp, h1, by simpa using h2, h3⟩
      · exact ⟨r + 1, c, by simpa using h, h1, by simpa using h2, by rw [h3, show y + 1 + r = y + (r + 1) by omega]⟩
    · rintro ⟨r, c, h, h1, h2, h3⟩
      cases r with
      | zero => exact .inl ⟨c, h1, by simpa using h2, h3⟩
      | succ r =>
        exact .inr ⟨r, c, by simpa using h, h1, by simpa using h2, by rw [h3, show y + 1 + r = y + (r + 1) by omega]⟩

theorem nodup_spriteRowPixels (x0 : Nat) (py : Fin 32) (row : Byte) : (spriteRowPixels x0 py row).Nodup := by
  refine List.Nodup.map_on ?_ (List.nodup_range.filter _)
  intro a ha b hb e
  have ha' : a < 8 := List.mem_range.mp (List.mem_filter.mp ha).1
  have hb' : b < 8 := List.mem_range.mp (List.mem_filter.mp hb).1
  have h := congrArg (fun q : Fin 64 × Fin 32 => q.1.val) e
  simp only [Fin.val_ofNat] at h
  omega

/-- No pixel is listed twice: the sprite cannot wrap onto itself. -/
theorem nodup_spritePixels (x0 y : Nat) (rows : List Byte) (h : rows.length ≤ 32) :
    (spritePixels x0 y rows).Nodup := by
  induction rows generalizing y with
  | nil => simp [spritePixels]
  | cons row rows ih =>
    simp only [List.length_cons] at h
    rw [spritePixels, List.nodup_append]
    refine ⟨nodup_spriteRowPixels _ _ _, ih _ (by omega), ?_⟩
    intro p hp q hq e
    rw [mem_spriteRowPixels] at hp
    rw [mem_spritePixels] at hq
    obtain ⟨c, -, -, rfl⟩ := hp
    obtain ⟨r, d, hr, -, -, rfl⟩ := hq
    have h2 := congrArg (fun q : Fin 64 × Fin 32 => q.2.val) e
    simp only [Fin.val_ofNat] at h2
    omega

/-- Drawing a sprite flips the pixels it lights and no other. -/
theorem pixel_plot_spritePixels (fb : Framebuffer) (x0 y : Nat) (rows : List Byte) (h : rows.length ≤ 32)
    (px : Fin 64) (py : Fin 32) :
    Framebuffer.pixel (Framebuffer.plot fb false (spritePixels x0 y rows)).1 px py =
      (Framebuffer.pixel fb px py ^^ decide ((px, py) ∈ spritePixels x0 y rows)) := by
  rw [Framebuffer.pixel_plot]
  congr 1
  by_cases hm : (px, py) ∈ spritePixels x0 y rows
  · rw [List.count_eq_one_of_mem (nodup_spritePixels x0 y rows h) hm]
    simp [hm]
  · rw [List.count_eq_zero_of_not_mem hm]
    simp [hm]

@[simp] theorem State.spriteRows_length (s : State) (n : Nibble) : (s.spriteRows n).length = n.toNat :=
  Memory.readList_length _ _ _

/-- A sprite of a `DRW` has at most 15 rows. -/
theorem State.spriteRows_length_le (s : State) (n : Nibble) : (s.spriteRows n).length ≤ 32 := by
  have := n.isLt
  rw [State.spriteRows_length]
  omega

end Sys2Proof.Machine
end

