-- ==== Sys2Proof/Laws/Step.lean ====
section
/-! SUPPORT. What a step can do: one lemma per phase (40_step_cycle.md R65). -/

namespace Sys2Proof.Machine

theorem step_of_fault (s : State) (f : CoreFault) (h : s.fault = some f) : step s = .next s := by
  simp [step, cycle, h]

theorem step_of_waiting (s : State) (r : Nibble) (hf : s.fault = none) (hw : s.wait = .awaitingKey r) :
    step s = .next (waitingStep r s) := by
  simp [step, cycle, hf, hw]

theorem step_of_running (s : State) (hf : s.fault = none) (hw : s.wait = .running) :
    step s = fetchAndExecute s := by
  simp [step, cycle, hf, hw]

theorem fetchAndExecute_of_some (s : State) (i : Instr) (h : decodeWord s.fetchWord = some i) :
    fetchAndExecute s = exec i s.advance := by
  simp [fetchAndExecute, h]

theorem fetchAndExecute_of_none (s : State) (h : decodeWord s.fetchWord = none) :
    fetchAndExecute s = .next (s.advance.unsupported s.fetchWord s.pc) := by
  simp [fetchAndExecute, h]

end Sys2Proof.Machine
end

