-- ==== Sys2Proof/Tests/Slice0.lean ====
section
/-! SUPPORT. The model's own tests: words and results from 95_test_vectors.md (the vector is named beside each), and
a witness for the hypotheses of each statement that has some. -/

namespace Sys2Proof.Tests

open Sys2Proof Sys2Proof.Machine

/-! ## Well-formedness refuses a spelling whose ignored nibble is not 0 (30_encoding.md R57) -/

theorem test_cls_ill_formed : Instr.wellFormed (.cls 5) = false := by decide
theorem test_ret_ill_formed : Instr.wellFormed (.ret 7) = false := by decide
theorem test_seReg_ill_formed : Instr.wellFormed (.seReg 1 2 7) = false := by decide
theorem test_sneReg_ill_formed : Instr.wellFormed (.sneReg 0xA 0xB 0xF) = false := by decide
theorem test_cls_well_formed : Instr.wellFormed (.cls 0) = true := by decide

/-! ## One word per constructor, written out from 30_encoding.md R59 (section 2.1 of 95_test_vectors.md) -/

theorem test_decode_cls : decodeWord 0x00E0 = some (.cls 0) := by decide
theorem test_decode_cls_ignored : decodeWord 0x0AE0 = some (.cls 0xA) := by decide
theorem test_decode_ret : decodeWord 0x00EE = some (.ret 0) := by decide
theorem test_decode_jp : decodeWord 0x1ABC = some (.jp 0xABC) := by decide
theorem test_decode_call : decodeWord 0x2ABC = some (.call 0xABC) := by decide
theorem test_decode_seImm : decodeWord 0x3A7F = some (.seImm 0xA 0x7F) := by decide
theorem test_decode_sneImm : decodeWord 0x4A7F = some (.sneImm 0xA 0x7F) := by decide
theorem test_decode_seReg : decodeWord 0x5127 = some (.seReg 1 2 7) := by decide
theorem test_decode_ldImm : decodeWord 0x6A7F = some (.ldImm 0xA 0x7F) := by decide
theorem test_decode_addImm : decodeWord 0x7A7F = some (.addImm 0xA 0x7F) := by decide
theorem test_decode_ldReg : decodeWord 0x8120 = some (.ldReg 1 2) := by decide
theorem test_decode_orReg : decodeWord 0x8121 = some (.orReg 1 2) := by decide
theorem test_decode_andReg : decodeWord 0x8122 = some (.andReg 1 2) := by decide
theorem test_decode_xorReg : decodeWord 0x8123 = some (.xorReg 1 2) := by decide
theorem test_decode_addReg : decodeWord 0x8124 = some (.addReg 1 2) := by decide
theorem test_decode_sub : decodeWord 0x8125 = some (.sub 1 2) := by decide
theorem test_decode_shr : decodeWord 0x8126 = some (.shr 1 2) := by decide
theorem test_decode_subn : decodeWord 0x8127 = some (.subn 1 2) := by decide
theorem test_decode_shl : decodeWord 0x812E = some (.shl 1 2) := by decide
theorem test_decode_sneReg : decodeWord 0x9AB0 = some (.sneReg 0xA 0xB 0) := by decide
theorem test_decode_ldI : decodeWord 0xA123 = some (.ldI 0x123) := by decide
theorem test_decode_jpV0 : decodeWord 0xB123 = some (.jpV0 0x123) := by decide
theorem test_decode_rnd : decodeWord 0xC10F = some (.rnd 1 0x0F) := by decide
theorem test_decode_drw : decodeWord 0xD015 = some (.drw 0 1 5) := by decide
theorem test_decode_skp : decodeWord 0xE19E = some (.skp 1) := by decide
theorem test_decode_sknp : decodeWord 0xE1A1 = some (.sknp 1) := by decide
theorem test_decode_ldVxDt : decodeWord 0xF107 = some (.ldVxDt 1) := by decide
theorem test_decode_ldVxK : decodeWord 0xF10A = some (.ldVxK 1) := by decide
theorem test_decode_ldDtVx : decodeWord 0xF115 = some (.ldDtVx 1) := by decide
theorem test_decode_ldStVx : decodeWord 0xF118 = some (.ldStVx 1) := by decide
theorem test_decode_addI : decodeWord 0xF11E = some (.addI 1) := by decide
theorem test_decode_ldF : decodeWord 0xF129 = some (.ldF 1) := by decide
theorem test_decode_ldB : decodeWord 0xF133 = some (.ldB 1) := by decide
theorem test_decode_ldMemVx : decodeWord 0xF155 = some (.ldMemVx 1) := by decide
theorem test_decode_ldVxMem : decodeWord 0xFF65 = some (.ldVxMem 0xF) := by decide
theorem test_reject_zero : decodeWord 0x0000 = none := by decide
theorem test_reject_sys : decodeWord 0x0123 = none := by decide
theorem test_reject_key8 : decodeWord 0x8128 = none := by decide
theorem test_reject_key8_top : decodeWord 0x812F = none := by decide
theorem test_reject_keyE : decodeWord 0xE19F = none := by decide
theorem test_reject_keyF : decodeWord 0xF185 = none := by decide
theorem test_decode_truncated : decode [0x12] = .truncated := by decide
theorem test_decode_bytes : decode [0x12, 0x34, 0x56] = .ok (.jp 0x234) [0x56] := by decide
theorem test_decode_table_word : decodeTableWord 16 0xD015 = some (.drw 0 1 5) := by decide

/-! ## Steps -/

/-- The answer is a next state of which `p` holds. -/
def nextIs (r : Result) (p : State → Bool) : Bool :=
  match r with
  | .next t => p t
  | .fault _ => false
  | .refused _ => false

/-- V41-1 -/
theorem test_step_jp : nextIs (step (State.withFetchWord
    (State.reset.setPc 0x300) 16 0x1ABC))
    (fun t => t.pc == 0xABC) = true := by decide
/-- V41-2 -/
theorem test_step_call_pushes_unmasked_pc : nextIs (step (State.withFetchWord
    { State.reset with pc := 0x0FFE, sp := 3 } 16 0x2300))
    (fun t => t.stack[3] == 0x1000 && t.sp == 4 && t.pc == 0x300) = true := by decide
/-- V41-13 -/
theorem test_step_call_sixteenth : nextIs (step (State.withFetchWord
    { State.reset with sp := 15 } 16 0x2300))
    (fun t => t.stack[15] == 0x0202 && t.sp == 16 && t.fault == none) = true := by decide
/-- V41-14 -/
theorem test_step_call_overflow : nextIs (step (State.withFetchWord
    { State.reset with sp := 16 } 16 0x2300))
    (fun t => t.fault == some .stackOverflow && t.pc == 0x202 && t.sp == 16) = true := by decide
/-- V41-3 -/
theorem test_step_ret : nextIs (step (State.withFetchWord
    { State.reset with pc := 0x300, sp := 1, stack := State.reset.stack.set 0 0x1000 } 16 0x00EE))
    (fun t => t.pc == 0x1000 && t.sp == 0 && t.stack[0] == 0x1000) = true := by decide
/-- V60-4 -/
theorem test_step_ret_underflow : nextIs (step (State.withFetchWord
    State.reset 16 0x00EE))
    (fun t => t.fault == some .stackUnderflow && t.pc == 0x202 && t.sp == 0) = true := by decide
/-- V41-4 -/
theorem test_step_seImm_taken : nextIs (step (State.withFetchWord
    (((State.reset.setReg 5 0x42)).setPc 0x300) 16 0x3542))
    (fun t => t.pc == 0x304) = true := by decide
/-- V41-5 -/
theorem test_step_seImm_not_taken : nextIs (step (State.withFetchWord
    (((State.reset.setReg 5 0x43)).setPc 0x300) 16 0x3542))
    (fun t => t.pc == 0x302) = true := by decide
/-- V41-7 -/
theorem test_step_sneImm : nextIs (step (State.withFetchWord
    (((State.reset.setReg 5 0x43)).setPc 0x300) 16 0x4542))
    (fun t => t.pc == 0x304) = true := by decide
/-- V41-8 -/
theorem test_step_seReg_same_register : nextIs (step (State.withFetchWord
    (((State.reset.setReg 3 0x99)).setPc 0x300) 16 0x5330))
    (fun t => t.pc == 0x304) = true := by decide
/-- V41-9 -/
theorem test_step_sneReg_same_register : nextIs (step (State.withFetchWord
    (((State.reset.setReg 3 0x99)).setPc 0x300) 16 0x9330))
    (fun t => t.pc == 0x302) = true := by decide
/-- V41-10 -/
theorem test_step_jpV0_not_masked : nextIs (step (State.withFetchWord
    (State.reset.setReg 0 0xFF) 16 0xBFFF))
    (fun t => t.pc == 0x10FE) = true := by decide
/-- V41-11 -/
theorem test_step_skip_wraps_pc : nextIs (step (State.withFetchWord
    (State.reset.setPc 0xFFFE) 16 0x3000))
    (fun t => t.pc == 0x0002) = true := by decide
/-- V41-12 -/
theorem test_step_fetch_across_the_wrap : nextIs (step (State.withFetchWord
    (State.reset.setPc 0x0FFF) 16 0x1234))
    (fun t => t.pc == 0x0234) = true := by decide
/-- V42-31 -/
theorem test_step_ldImm : nextIs (step (State.withFetchWord
    (State.reset.setReg 0xA 0x11) 16 0x6A7F))
    (fun t => t.reg 0xA == 0x7F) = true := by decide
/-- V42-33 -/
theorem test_step_addImm_no_flag : nextIs (step (State.withFetchWord
    ((State.reset.setReg 1 0xFF).setReg 15 0x55) 16 0x7101))
    (fun t => t.reg 1 == 0 && t.reg 15 == 0x55) = true := by decide
/-- V42-17 -/
theorem test_step_ldReg : nextIs (step (State.withFetchWord
    (((State.reset.setReg 1 0x11).setReg 2 0xEE).setReg 15 0x55) 16 0x8120))
    (fun t => t.reg 1 == 0xEE && t.reg 15 == 0x55) = true := by decide
/-- V42-18 -/
theorem test_step_orReg : nextIs (step (State.withFetchWord
    (((State.reset.setReg 1 0x0F).setReg 2 0x3C).setReg 15 0x55) 16 0x8121))
    (fun t => t.reg 1 == 0x3F && t.reg 15 == 0x55) = true := by decide
/-- V42-18 -/
theorem test_step_andReg : nextIs (step (State.withFetchWord
    (((State.reset.setReg 1 0x0F).setReg 2 0x3C).setReg 15 0x55) 16 0x8122))
    (fun t => t.reg 1 == 0x0C && t.reg 15 == 0x55) = true := by decide
/-- V42-18 -/
theorem test_step_xorReg : nextIs (step (State.withFetchWord
    (((State.reset.setReg 1 0x0F).setReg 2 0x3C).setReg 15 0x55) 16 0x8123))
    (fun t => t.reg 1 == 0x33 && t.reg 15 == 0x55) = true := by decide
/-- V42-1 -/
theorem test_step_addReg_carry : nextIs (step (State.withFetchWord
    ((State.reset.setReg 1 0xC8).setReg 2 0x64) 16 0x8124))
    (fun t => t.reg 1 == 0x2C && t.reg 15 == 1) = true := by decide
/-- V42-21 -/
theorem test_step_addReg_into_vf : nextIs (step (State.withFetchWord
    ((State.reset.setReg 1 0x01).setReg 15 0x01) 16 0x8F14))
    (fun t => t.reg 15 == 0) = true := by decide
/-- V42-7 -/
theorem test_step_sub_borrow : nextIs (step (State.withFetchWord
    ((State.reset.setReg 1 0x2C).setReg 2 0x64) 16 0x8125))
    (fun t => t.reg 1 == 0xC8 && t.reg 15 == 0) = true := by decide
/-- V42-25 -/
theorem test_step_sub_of_vf : nextIs (step (State.withFetchWord
    ((State.reset.setReg 1 0x05).setReg 15 0x03) 16 0x81F5))
    (fun t => t.reg 1 == 0x02 && t.reg 15 == 1) = true := by decide
/-- V42-11 -/
theorem test_step_subn_borrow : nextIs (step (State.withFetchWord
    ((State.reset.setReg 1 0x0A).setReg 2 0x05) 16 0x8127))
    (fun t => t.reg 1 == 0xFB && t.reg 15 == 0) = true := by decide
/-- V42-26 -/
theorem test_step_subn_into_vf : nextIs (step (State.withFetchWord
    ((State.reset.setReg 1 0x09).setReg 15 0x02) 16 0x8F17))
    (fun t => t.reg 15 == 1) = true := by decide
/-- V42-13 -/
theorem test_step_shr_ignores_vy : nextIs (step (State.withFetchWord
    ((State.reset.setReg 1 0x04).setReg 2 0xFF) 16 0x8126))
    (fun t => t.reg 1 == 2 && t.reg 2 == 0xFF && t.reg 15 == 0) = true := by decide
/-- V42-14 -/
theorem test_step_shr_bit_out : nextIs (step (State.withFetchWord
    (State.reset.setReg 1 0x81) 16 0x8106))
    (fun t => t.reg 1 == 0x40 && t.reg 15 == 1) = true := by decide
/-- V42-15 -/
theorem test_step_shl_bit_out : nextIs (step (State.withFetchWord
    (State.reset.setReg 1 0x81) 16 0x810E))
    (fun t => t.reg 1 == 0x02 && t.reg 15 == 1) = true := by decide
/-- V42-30 -/
theorem test_step_shl_into_vf : nextIs (step (State.withFetchWord
    (State.reset.setReg 15 0x7F) 16 0x8F0E))
    (fun t => t.reg 15 == 0) = true := by decide
/-- V42-35 -/
theorem test_step_rnd_injected : nextIs (step (State.withFetchWord
    (State.reset.seedRng 0 [0x5A]) 16 0xC1F0))
    (fun t => t.reg 1 == 0x50 && t.rng.drawn == 1) = true := by decide
/-- V42-36 -/
theorem test_step_rnd_zero_mask : nextIs (step (State.withFetchWord
    (State.reset.seedRng 7 [0xFF, 0xFF]) 16 0xC100))
    (fun t => t.reg 1 == 0 && t.rng.drawn == 1) = true := by decide
/-- V43-1 -/
theorem test_step_ldI : nextIs (step (State.withFetchWord
    State.reset 16 0xAFFF))
    (fun t => t.i == 0x0FFF) = true := by decide
/-- V43-3 -/
theorem test_step_addI_wraps_16_bits : nextIs (step (State.withFetchWord
    (((State.reset.setReg 1 1)).setI 0xFFFF) 16 0xF11E))
    (fun t => t.i == 0) = true := by decide
/-- V43-4 -/
theorem test_step_addI_not_masked : nextIs (step (State.withFetchWord
    (((State.reset.setReg 1 1)).setI 0x0FFF) 16 0xF11E))
    (fun t => t.i == 0x1000 && t.reg 15 == 0) = true := by decide
/-- V43-7 -/
theorem test_step_ldF_past_the_font : nextIs (step (State.withFetchWord
    (State.reset.setReg 1 0x10) 16 0xF129))
    (fun t => t.i == 0x00A0) = true := by decide
/-- V43-8 -/
theorem test_step_ldF_top : nextIs (step (State.withFetchWord
    (State.reset.setReg 1 0xFF) 16 0xF129))
    (fun t => t.i == 0x054B) = true := by decide
/-- V43-12 -/
theorem test_step_ldB_255 : nextIs (step (State.withFetchWord
    (((State.reset.setReg 1 255)).setI 0x300) 16 0xF133))
    (fun t => t.memRead 0x300 == 2 && t.memRead 0x301 == 5 && t.memRead 0x302 == 5 && t.i == 0x300) = true := by decide
/-- V43-11 -/
theorem test_step_ldB_wraps : nextIs (step (State.withFetchWord
    (((State.reset.setReg 1 123)).setI 0xFFE) 16 0xF133))
    (fun t => t.memRead 0xFFE == 1 && t.memRead 0xFFF == 2 && t.memRead 0x000 == 3) = true := by decide
/-- V43-13 -/
theorem test_step_ldMemVx_only_v0 : nextIs (step (State.withFetchWord
    ((((State.reset.setReg 0 0x11).setReg 1 0x22)).setI 0x300) 16 0xF055))
    (fun t => t.memRead 0x300 == 0x11 && t.memRead 0x301 == 0 && t.i == 0x300) = true := by decide
/-- V43-17 -/
theorem test_step_ldMemVx_font_not_protected : nextIs (step (State.withFetchWord
    (State.reset.setI 0x050) 16 0xF055))
    (fun t => t.memRead 0x050 == 0) = true := by decide
/-- V43-15 -/
theorem test_step_ldVxMem : nextIs (step (State.withFetchWord
    (((((State.reset.setReg 3 0x99)).setI 0x300).store 0x300 [1, 2, 3, 4])) 16 0xF265))
    (fun t => t.reg 0 == 1 && t.reg 1 == 2 && t.reg 2 == 3 && t.reg 3 == 0x99) = true := by decide
/-- V43-16 -/
theorem test_step_ldVxMem_font : nextIs (step (State.withFetchWord
    (State.reset.setI 0x050) 16 0xFF65))
    (fun t => t.reg 0 == 0xF0 && t.reg 5 == 0x20 && t.reg 9 == 0x70 && t.reg 15 == 0xF0) = true := by decide
/-- V44-1 -/
theorem test_step_cls : nextIs (step (State.withFetchWord
    (((State.reset.setReg 15 0x55)).setFb (Framebuffer.flip (Framebuffer.flip State.reset.fb 0 0) 63 31)) 16 0x00E0))
    (fun t => !t.fb.pixel 0 0 && !t.fb.pixel 63 31 && t.reg 15 == 0x55) = true := by decide
/-- V44-4 -/
theorem test_step_drw_wraps_columns : nextIs (step (State.withFetchWord
    ((((State.reset.setReg 0 60)).setI 0x300).store 0x300 [0xFF]) 16 0xD011))
    (fun t => t.fb.pixel 63 0 && t.fb.pixel 0 0 && t.fb.pixel 3 0 && !t.fb.pixel 4 0 && !t.fb.pixel 59 0 && t.reg 15 == 0) = true := by decide
/-- V44-9 -/
theorem test_step_drw_collides : nextIs (step (State.withFetchWord
    (((State.reset.setI 0x300).store 0x300 [0xC0]).setFb (Framebuffer.flip State.reset.fb 1 0)) 16 0xD011))
    (fun t => t.fb.pixel 0 0 && !t.fb.pixel 1 0 && t.reg 15 == 1) = true := by decide
/-- V45-1 -/
theorem test_step_skp_above_15 : nextIs (step (State.withFetchWord
    (((State.reset.setReg 1 0x10)).setKeys (Vector.replicate 16 true)) 16 0xE19E))
    (fun t => t.pc == 0x202) = true := by decide
/-- V45-3 -/
theorem test_step_skp_key_15 : nextIs (step (State.withFetchWord
    (((State.reset.setReg 1 0x0F)).setKeys (State.reset.keys.set 15 true)) 16 0xE19E))
    (fun t => t.pc == 0x204) = true := by decide
/-- V45-2 -/
theorem test_step_sknp_above_15 : nextIs (step (State.withFetchWord
    (((State.reset.setReg 1 0x10)).setKeys (Vector.replicate 16 true)) 16 0xE1A1))
    (fun t => t.pc == 0x204) = true := by decide
/-- V45-5 -/
theorem test_step_sknp_key_3 : nextIs (step (State.withFetchWord
    (((State.reset.setReg 1 0x03)).setKeys (State.reset.keys.set 3 true)) 16 0xE1A1))
    (fun t => t.pc == 0x202) = true := by decide
/-- V45-6 -/
theorem test_step_ldVxDt : nextIs (step (State.withFetchWord
    (State.reset.setDt 0x3C) 16 0xF107))
    (fun t => t.reg 1 == 0x3C && t.dt == 0x3C) = true := by decide
/-- V45-7 -/
theorem test_step_ldDtVx : nextIs (step (State.withFetchWord
    (State.reset.setReg 1 0x3C) 16 0xF115))
    (fun t => t.dt == 0x3C && t.st == 0) = true := by decide
/-- V45-7 -/
theorem test_step_ldStVx : nextIs (step (State.withFetchWord
    (State.reset.setReg 1 0x3C) 16 0xF118))
    (fun t => t.st == 0x3C && t.dt == 0 && t.soundOn) = true := by decide
/-- V45-8 -/
theorem test_step_ldVxK_lowest_key : nextIs (step (State.withFetchWord
    ((State.reset.setPc 0x240).setKeys ((State.reset.keys.set 9 true).set 5 true)) 16 0xF20A))
    (fun t => t.reg 2 == 5 && t.pc == 0x242 && t.wait == .running) = true := by decide
/-- V45-9 -/
theorem test_step_ldVxK_waits : nextIs (step (State.withFetchWord
    (State.reset.setPc 0x240) 16 0xF20A))
    (fun t => t.reg 2 == 0 && t.pc == 0x240 && t.wait == .awaitingKey 2) = true := by decide
/-- V60-1 -/
theorem test_step_unsupported_word : nextIs (step (State.withFetchWord
    (((State.reset.setReg 1 9)).setPc 0x300) 16 0x8128))
    (fun t => t.fault == some (.unsupportedOpcode 0x8128 0x300) && t.pc == 0x302 && t.reg 1 == 9) = true := by decide
/-- 60_exceptions.md R151 -/
theorem test_step_unsupported_skipped : nextIs (step (State.withFetchWord
    { State.reset with policy := .skip } 16 0x8128))
    (fun t => t.fault == none && t.report == some { word := 0x8128, pc := 0x200 } && t.pc == 0x202) = true := by decide

/-- V60-3: with no image loaded the first step meets the word 0000. -/
theorem test_step_empty_memory : nextIs (step State.reset)
    (fun t => t.fault == some (.unsupportedOpcode 0x0000 0x0200) && t.pc == 0x202) = true := by decide
/-- V60-2: a faulted core ignores a step. -/
theorem test_step_faulted : nextIs (step (State.reset.raise .stackOverflow))
    (fun t => t == State.reset.raise .stackOverflow) = true := by decide
/-- V45-10 and V45-11: a waiting core holds, then takes the key. -/
theorem test_step_waiting : nextIs (step ((State.reset.setWait (.awaitingKey 2)).setKeys (State.reset.keys.set 12 true)))
    (fun t => t.reg 2 == 0x0C && t.pc == 0x202 && t.wait == .running) = true := by decide
/-- V45-14 and V45-16. -/
theorem test_tick : ((State.reset.setDt 1).setSt 0xFF).tickTimers.dt = 0 ∧
    ((State.reset.setDt 1).setSt 0xFF).tickTimers.st = 0xFE := by decide
/-- V45-13. -/
theorem test_tick_saturates : State.reset.tickTimers.dt = 0 ∧ State.reset.tickTimers.st = 0 := by decide
/-- V60-7: one byte too many. -/
theorem test_load_too_large : State.reset.loadImage (List.replicate 3585 0) = .error .imageTooLarge := by
  exact if_pos (by rw [List.length_replicate]; decide)

/-! ## Witnesses: a state and operands that meet the hypotheses of each statement that has some, clause by clause -/

theorem witness_EncodeOfDecodeIsTheWord : decodeWord 0xDFFF = some (.drw 0xF 0xF 0xF) := by decide

theorem witness_StepRunsTheDecodedInstruction :
    let s := State.reset.withFetchWord 16 0x8124
    s.fault = none ∧ s.wait = .running ∧
      decodeWord (wordOfBytes (s.memRead s.pc.toNat) (s.memRead (s.pc.toNat + 1))) = some (.addReg 1 2) := by
  decide

theorem witness_FaultedCoreIgnoresStep : (State.reset.raise .stackUnderflow).fault = some .stackUnderflow := rfl

theorem witness_WaitingStep_hold :
    let s := State.reset.setWait (.awaitingKey 15)
    s.fault = none ∧ s.wait = .awaitingKey 15 ∧ ∀ j, (h : j < 16) → s.keys[j] = false := by
  decide

theorem witness_WaitingStep_resolve :
    let s := (State.reset.setWait (.awaitingKey 15)).setKeys (State.reset.keys.set 15 true)
    s.fault = none ∧ s.wait = .awaitingKey 15 ∧ s.keys[15] = true ∧ ∀ j, (h : j < 15) → s.keys[j] = false := by
  decide

theorem witness_WaitingStep_enter :
    let s := State.reset.withFetchWord 16 0xFF0A
    s.fault = none ∧ s.wait = .running ∧ decodeWord s.fetchWord = some (.ldVxK 15) ∧
      ∀ j, (h : j < 16) → s.keys[j] = false := by
  decide

theorem witness_WaitingStep_press :
    let keys := (State.reset.keys.set 0 true).set 15 true
    keys[0] = true ∧ ∀ j, (h : j < 0) → keys[j] = false := by
  decide

theorem witness_UnsupportedWordHaltsTheCore :
    State.reset.fault = none ∧ State.reset.wait = .running ∧ State.reset.policy = .halt ∧
      decodeWord State.reset.fetchWord = none := by
  decide

theorem witness_UnsupportedWordIsSkippedUnderSkip :
    let s := { State.reset with policy := .skip }
    s.fault = none ∧ s.wait = .running ∧ s.policy = .skip ∧ decodeWord s.fetchWord = none := by
  decide

theorem witness_StepKeepsCoherent : Coherent State.reset ∧
    ∃ t, step (State.reset) = .next t := by
  exact ⟨⟨rfl, (fun _ h => nomatch h), trivial⟩, _, rfl⟩

theorem witness_ReachableStatesAreCoherent : Reachable State.reset :=
  ⟨.halt, 0, [], [], Vector.replicate 16 false, [], State.reset, rfl, rfl⟩

theorem witness_ResetLeavesTheSpecsValues : (State.reset.raise .stackOverflow).hostReset = State.reset := by
  decide

theorem witness_ImageLoads_refused : Memory.wf State.reset.mem = true ∧
    3584 < (List.replicate 3585 (0 : Byte)).length := by
  exact ⟨rfl, by rw [List.length_replicate]; decide⟩

theorem witness_ImageLoads_fits : Memory.wf State.reset.mem = true ∧
    (List.replicate 3584 (0 : Byte)).length ≤ 3584 := by
  exact ⟨rfl, by rw [List.length_replicate]⟩

theorem witness_StepNeverTouches_dt :
    nextIs (step ((State.reset.setReg 1 9).withFetchWord 16 0xF115))
      (fun t => t.dt != ((State.reset.setReg 1 9).withFetchWord 16 0xF115).dt) = true := by
  decide

theorem witness_StepNeverTouches_st :
    nextIs (step ((State.reset.setReg 1 9).withFetchWord 16 0xF118))
      (fun t => t.st != ((State.reset.setReg 1 9).withFetchWord 16 0xF118).st) = true := by
  decide

theorem witness_WriteChangesExactlyOneCell : Memory.wf State.reset.mem = true ∧
    0x1FFF &&& 0x0FFF = 0x0FFF &&& 0x0FFF ∧ 0x0000 &&& 0x0FFF ≠ 0x0FFF &&& 0x0FFF := by
  decide

/-- `JP` meets the hypotheses of every statement about what the other instructions leave alone but the one
about `PC`. -/
theorem witness_writers_other : (∃ t, exec (.jp 0xFFF) State.reset = .next t) ∧ ¬ WritesFb (.jp 0xFFF) ∧
    ¬ StoresMem (.jp 0xFFF) ∧ ¬ WritesI (.jp 0xFFF) ∧ ¬ UsesStack (.jp 0xFFF) ∧
    (¬ ∃ x kk, Instr.jp 0xFFF = .rnd x kk) ∧ (∀ x, Instr.jp 0xFFF ≠ .ldVxK x) ∧
    ¬ NamesDest 15 (.jp 0xFFF) ∧ ¬ (WritesFlag (.jp 0xFFF) ∧ (15 : Nibble) = 15) := by
  refine ⟨⟨_, rfl⟩, id, id, id, id, by simp, by simp, id, fun h => h.1⟩

/-- A step that changes a byte. -/
theorem witness_OnlyStoresWriteMemory :
    let s := ((State.reset.setReg 0 7).setI 0xFFF).withFetchWord 16 0xF055
    nextIs (step s) (fun t => t.memRead 0xFFF != s.memRead 0xFFF) = true := by
  decide

theorem witness_OnlyRndDrawsAByte : (∃ t, exec (.rnd 15 0) State.reset = .next t) ∧
    ∃ x kk, Instr.rnd 15 0 = .rnd x kk := ⟨⟨_, rfl⟩, _, _, rfl⟩

theorem witness_RegistersChange_flag : (∃ t, exec (.addReg 15 15) State.reset = .next t) ∧
    WritesFlag (.addReg 15 15) := ⟨⟨_, rfl⟩, trivial⟩

theorem witness_OnlyControlTransferWritesPc : (∃ t, exec (.drw 15 15 15) State.reset = .next t) ∧
    ¬ WritesPc (.drw 15 15 15) := ⟨⟨_, rfl⟩, id⟩

theorem witness_CallPushes : ({ State.reset with sp := 15 } : State).sp.val < 16 := by decide
theorem witness_CallOverflows : ({ State.reset with sp := 16 } : State).sp.val = 16 := by decide
theorem witness_RetPops : 0 < ({ State.reset with sp := 1 } : State).sp.val := by decide
theorem witness_RetUnderflows : State.reset.sp.val = 0 := by decide

theorem witness_CallsAndReturnsBalance : List.replicate 16 (0x300 : Imm12) ≠ [] ∧
    State.reset.sp.val + (List.replicate 16 (0x300 : Imm12)).length ≤ 16 ∧ State.reset.sp.val = 0 := by
  decide

/-- For the clause about `V[x]` of the flag instructions. -/
theorem witness_flags_dest : (14 : Nibble) ≠ 15 := by decide

theorem witness_RndMasksOneDraw :
    let s := State.reset.seedRng 0 [0xA7]
    s.rng.injected[s.rng.drawn]? = some 0xA7 := by
  decide

/-- For `LD B,Vx`, `LD [I],Vx` and `LD Vx,[I]`, with the range wrapping at 0xFFF. -/
theorem witness_memory_instructions : Memory.wf (State.reset.setI 0xFFF).mem = true := by decide

theorem witness_StoredCodeIsFetched :
    let s := ((State.reset.setReg 0 0x12).setReg 1 0x08).setI 0x1200
    Memory.wf s.mem = true ∧ 1 ≤ (1 : Nibble).toNat ∧ maskAddr s.pc.toNat = maskAddr s.i.toNat ∧
      s.fault = none ∧ s.wait = .running ∧
      decodeWord (wordOfBytes (s.reg 0) (s.reg 1)) = some (.jp 0x208) := by
  decide

/-- A sprite whose lit pixel, the last column of the last row, was on before. -/
theorem witness_Drw_collides :
    let s := ((State.reset.setI 0x300).store 0x300 [0x01]).setFb (Framebuffer.flip State.reset.fb 7 0)
    ∃ px py, SpriteLights s 0 1 1 px py ∧ s.fb.pixel px py = true := by
  exact ⟨7, 0, ⟨0, 7, by decide, by decide, by decide, by decide, by decide⟩, by decide⟩

/-- A sprite of no rows lights nothing. -/
theorem witness_Drw_misses : ¬ ∃ px py, SpriteLights State.reset 0 1 0 px py ∧ State.reset.fb.pixel px py = true := by
  rintro ⟨px, py, ⟨r, c, h, -⟩, -⟩
  exact Nat.not_lt_zero r h

theorem witness_KeySkips_down :
    let s := (State.reset.setReg 3 15).setKeys (State.reset.keys.set 15 true)
    ∃ h : (s.reg 3).toNat < 16, s.keys[(s.reg 3).toNat] = true := ⟨by decide, by decide⟩

theorem witness_KeySkips_up :
    let s := State.reset.setReg 3 15
    ∃ h : (s.reg 3).toNat < 16, s.keys[(s.reg 3).toNat] = false := ⟨by decide, by decide⟩

theorem witness_KeySkips_none : 16 ≤ ((State.reset.setReg 3 16).reg 3).toNat := by decide

theorem witness_TimersAreCopied : (State.reset.setReg 4 1).reg 4 = 1 ∧
    (∀ z, Instr.ldVxDt 4 ≠ .ldStVx z) ∧ ∃ t, exec (.ldVxDt 4) State.reset = .next t := by
  exact ⟨by decide, by simp, _, rfl⟩

theorem witness_LdVxK_key :
    let s := State.reset.setKeys (State.reset.keys.set 15 true)
    s.keys[15] = true ∧ ∀ j, (h : j < 15) → s.keys[j] = false := by
  decide

theorem witness_LdVxK_wait : ∀ j, (h : j < 16) → State.reset.keys[j] = false := by decide

end Sys2Proof.Tests
end

section
/-! PROOFS. Memory: the statements about reading and writing bytes (20_memory.md). -/

namespace Sys2Proof.Machine

/-- A read of the machine's memory is the cell at the masked address (20_memory.md R31). -/
theorem State.memRead_eq_cell (s : State) (a : Nat) : s.memRead a = Memory.cell s.mem (maskAddr a) := rfl

/-- Settles O22: the cell read is the one at `maskAddr a`, and the remainder the model takes there is the
spec's mask with 0x0FFF. -/
theorem memReadMasksItsAddress : Obligations.MemReadMasksItsAddress := by
  intro s a
  rw [State.memRead_eq_cell, maskAddr_eq_and]

end Sys2Proof.Machine
end

section
/-! PROOFS. What an update leaves unchanged: frames that compose (10_state.md R10 to R23). -/

namespace Sys2Proof.Machine

theorem SamePiece.trans {s t u : State} {p : Piece} (hst : SamePiece s t p) (htu : SamePiece t u p) :
    SamePiece s u p := by
  cases p with
  | mem => exact fun a => (htu a).trans (hst a)
  | v => exact fun r => (htu r).trans (hst r)
  | fb => exact fun px py => (htu px py).trans (hst px py)
  | _ => exact Eq.trans htu hst

/-- Two changes in a row leave alone what both leave alone. -/
theorem KeepsAllBut.trans {ps qs : List Piece} {s t u : State} (hst : KeepsAllBut ps s t)
    (htu : KeepsAllBut qs t u) : KeepsAllBut (ps ++ qs) s u := by
  intro p hp
  rw [List.mem_append, not_or] at hp
  exact (hst p hp.1).trans (htu p hp.2)

theorem State.setPc_keeps (s : State) (w : Word) : KeepsAllBut [.pc] s (s.setPc w) := by
  intro p hp
  cases p with
  | pc => simp at hp
  | _ => simp [SamePiece, State.memRead, State.reg]

theorem State.raise_keeps (s : State) (f : CoreFault) : KeepsAllBut [.fault] s (s.raise f) := by
  intro p hp
  cases p with
  | fault => simp at hp
  | _ => simp [SamePiece, State.memRead, State.reg]

/-- A push that succeeds writes the stack and `SP` only. -/
theorem State.push?_keeps {s t : State} {w : Word} (h : s.push? w = some t) :
    KeepsAllBut [.stack, .sp] s t := by
  rcases Nat.lt_or_ge s.sp.val 16 with hlt | hge
  · rw [State.push?_of_lt s w hlt, Option.some.injEq] at h
    subst h
    intro p hp
    cases p with
    | stack => simp at hp
    | sp => simp at hp
    | _ => simp [SamePiece, State.memRead, State.reg]
  · rw [State.push?_of_full s w (by omega)] at h
    cases h

/-- A pop that succeeds writes `SP` only. -/
theorem State.pop?_keeps {s t : State} {w : Word} (h : s.pop? = some (w, t)) : KeepsAllBut [.sp] s t := by
  rcases Nat.eq_zero_or_pos s.sp.val with hzero | hpos
  · rw [State.pop?_of_empty s hzero] at h
    cases h
  · rw [State.pop?_of_pos s hpos, Option.some.injEq, Prod.mk.injEq] at h
    obtain ⟨-, rfl⟩ := h
    intro p hp
    cases p with
    | sp => simp at hp
    | _ => simp [SamePiece, State.memRead, State.reg]

end Sys2Proof.Machine
end

section
/-! PROOFS. Control transfer: jump, call, return and the skips on a comparison (41_flow.md R76 to R82). -/

namespace Sys2Proof.Machine

/-! The words of these instructions (30_encoding.md R59). -/

@[simp] theorem decodeWord_ret (ign : Nibble) : decodeWord (packXK 0x0 ign 0xEE) = some (.ret ign) := by
  simp [decodeWord, decodeFamily0]

@[simp] theorem decodeWord_jp (nnn : Imm12) : decodeWord (packA 0x1 nnn) = some (.jp nnn) := by
  simp [decodeWord]

@[simp] theorem decodeWord_call (nnn : Imm12) : decodeWord (packA 0x2 nnn) = some (.call nnn) := by
  simp [decodeWord]

@[simp] theorem decodeWord_seImm (x : Nibble) (kk : Byte) :
    decodeWord (packXK 0x3 x kk) = some (.seImm x kk) := by
  simp [decodeWord]

@[simp] theorem decodeWord_sneImm (x : Nibble) (kk : Byte) :
    decodeWord (packXK 0x4 x kk) = some (.sneImm x kk) := by
  simp [decodeWord]

@[simp] theorem decodeWord_seReg (x y ign : Nibble) :
    decodeWord (packXYN 0x5 x y ign) = some (.seReg x y ign) := by
  simp [decodeWord]

@[simp] theorem decodeWord_sneReg (x y ign : Nibble) :
    decodeWord (packXYN 0x9 x y ign) = some (.sneReg x y ign) := by
  simp [decodeWord]

/-- An address immediate keeps its value as a 16-bit target (30_encoding.md R53). -/
@[simp] theorem toNat_zextNnn (nnn : Imm12) : (zextNnn nnn).toNat = nnn.toNat :=
  BitVec.toNat_setWidth_of_le (by decide)

/-! Skips (R83). -/

theorem State.skipIf_keeps (s : State) (c : Bool) : KeepsAllBut [.pc] s (s.skipIf c) := by
  rw [State.skipIf_eq]
  exact s.setPc_keeps _

/-- A skip on equality, in the numbers the two bytes are. -/
theorem State.skipIf_beq_pc (s : State) (a b : Byte) :
    (s.skipIf (a == b)).pc = if a.toNat = b.toNat then s.pc + 2 else s.pc := by
  simp only [State.skipIf_eq, State.setPc_pc, beq_iff_eq, BitVec.toNat_inj]

/-- A skip on difference goes the other way. -/
theorem State.skipIf_bne_pc (s : State) (a b : Byte) :
    (s.skipIf (a != b)).pc = if a.toNat = b.toNat then s.pc else s.pc + 2 := by
  simp only [State.skipIf_eq, State.setPc_pc, bne_iff_ne, BitVec.toNat_inj, ite_not]

/-! Each side of the limits of `SP`. -/

theorem exec_call_of_lt (nnn : Imm12) (s : State) (h : s.sp.val < 16) :
    exec (.call nnn) s = .next (State.setPc
      { s with stack := s.stack.set s.sp.val s.pc h, sp := ⟨s.sp.val + 1, by omega⟩ } (zextNnn nnn)) := by
  obtain ⟨hfull, -⟩ | ⟨_, hexec⟩ := execCall_cases nnn s
  · omega
  · exact hexec

theorem exec_call_of_full (nnn : Imm12) (s : State) (h : s.sp.val = 16) :
    exec (.call nnn) s = .next (s.raise .stackOverflow) := by
  obtain ⟨-, hexec⟩ | ⟨hlt, -⟩ := execCall_cases nnn s
  · exact hexec
  · omega

theorem exec_ret_of_pos (ign : Nibble) (s : State) (h : 0 < s.sp.val) :
    exec (.ret ign) s = .next (State.setPc
      { s with sp := ⟨s.sp.val - 1, by omega⟩ } (s.stack[s.sp.val - 1]'(by omega))) := by
  obtain ⟨hempty, -⟩ | ⟨_, hexec⟩ := execRet_cases ign s
  · omega
  · exact hexec

theorem exec_ret_of_empty (ign : Nibble) (s : State) (h : s.sp.val = 0) :
    exec (.ret ign) s = .next (s.raise .stackUnderflow) := by
  obtain ⟨-, hexec⟩ | ⟨hpos, -⟩ := execRet_cases ign s
  · exact hexec
  · omega

/-! The statements -/

/-- Settles O32: below capacity the call is a push and then a `setPc`, whose frames compose; at capacity it is
`raise`. -/
theorem callPushesOrOverflows : Obligations.CallPushesOrOverflows := by
  intro nnn s
  refine ⟨decodeWord_call nnn, fun hlt => ?_, fun hfull => ?_⟩
  · refine ⟨_, exec_call_of_lt nnn s hlt, ?_, fun k hk hne => ?_, rfl, toNat_zextNnn nnn, ?_⟩
    · exact Vector.getElem_set_self hlt
    · exact Vector.getElem_set_ne hlt hk hne.symm
    · exact (State.push?_keeps (s.push?_of_lt s.pc hlt)).trans (State.setPc_keeps _ _)
  · exact ⟨_, exec_call_of_full nnn s hfull, rfl, s.raise_keeps _⟩

/-- Settles O33: with an entry in use the return is a pop and then a `setPc`, so the stack keeps the entry; with
none it is `raise`. -/
theorem retPopsOrUnderflows : Obligations.RetPopsOrUnderflows := by
  intro ign s
  refine ⟨decodeWord_ret ign, fun hpos => ?_, fun hempty => ?_⟩
  · exact ⟨_, exec_ret_of_pos ign s hpos, rfl, rfl,
      (State.pop?_keeps (s.pop?_of_pos hpos)).trans (State.setPc_keeps _ _)⟩
  · exact ⟨_, exec_ret_of_empty ign s hempty, rfl, s.raise_keeps _⟩

/-- Settles O34: both are `skipIf` on the comparison of `V[x]` with `kk`. -/
theorem skipsOnAnImmediate : Obligations.SkipsOnAnImmediate := by
  intro x kk s
  exact ⟨decodeWord_seImm x kk, decodeWord_sneImm x kk,
    ⟨_, rfl, s.skipIf_keeps _, s.skipIf_beq_pc (s.reg x) kk⟩,
    ⟨_, rfl, s.skipIf_keeps _, s.skipIf_bne_pc (s.reg x) kk⟩⟩

/-- Settles O35: both are `skipIf` on the comparison of the two registers. -/
theorem skipsOnRegisters : Obligations.SkipsOnRegisters := by
  intro x y ign s
  exact ⟨decodeWord_seReg x y ign, decodeWord_sneReg x y ign, beq_iff_eq, beq_iff_eq,
    ⟨_, rfl, s.skipIf_keeps _, s.skipIf_beq_pc (s.reg x) (s.reg y)⟩,
    ⟨_, rfl, s.skipIf_keeps _, s.skipIf_bne_pc (s.reg x) (s.reg y)⟩⟩

/-- Settles O31: the jump is `setPc` of the zero-extended immediate. -/
theorem jpJumps : Obligations.JpJumps := by
  intro nnn s
  exact ⟨decodeWord_jp nnn, _, rfl, toNat_zextNnn nnn, s.setPc_keeps _⟩

end Sys2Proof.Machine
end

section
/-! PROOFS. Register load, logic and arithmetic with and without a flag (42_alu.md R92 to R99). -/

namespace Sys2Proof.Machine

/-! The words of these instructions (30_encoding.md R59). -/

theorem decodeWord_ldImm (x : Nibble) (kk : Byte) :
    decodeWord (packXK 0x6 x kk) = some (.ldImm x kk) := by
  simp [decodeWord]

theorem decodeWord_addImm (x : Nibble) (kk : Byte) :
    decodeWord (packXK 0x7 x kk) = some (.addImm x kk) := by
  simp [decodeWord]

theorem decodeWord_ldReg (x y : Nibble) : decodeWord (packXYN 0x8 x y 0x0) = some (.ldReg x y) := by
  simp [decodeWord, decodeFamily8]

theorem decodeWord_orReg (x y : Nibble) : decodeWord (packXYN 0x8 x y 0x1) = some (.orReg x y) := by
  simp [decodeWord, decodeFamily8]

theorem decodeWord_andReg (x y : Nibble) : decodeWord (packXYN 0x8 x y 0x2) = some (.andReg x y) := by
  simp [decodeWord, decodeFamily8]

theorem decodeWord_xorReg (x y : Nibble) : decodeWord (packXYN 0x8 x y 0x3) = some (.xorReg x y) := by
  simp [decodeWord, decodeFamily8]

theorem decodeWord_addReg (x y : Nibble) : decodeWord (packXYN 0x8 x y 0x4) = some (.addReg x y) := by
  simp [decodeWord, decodeFamily8]

theorem decodeWord_sub (x y : Nibble) : decodeWord (packXYN 0x8 x y 0x5) = some (.sub x y) := by
  simp [decodeWord, decodeFamily8]

/-! What a register write leaves unchanged, without and with the flag. -/

theorem State.setReg_keeps (s : State) (x : Nibble) (b : Byte) : KeepsAllBut [.v] s (s.setReg x b) := by
  intro p hp
  cases p with
  | v => simp at hp
  | _ => simp [SamePiece, State.memRead]

theorem State.setReg_keepsRegs (s : State) (x : Nibble) (b : Byte) :
    KeepsRegsBut (· = x) s (s.setReg x b) :=
  fun _ hr => s.reg_setReg_other b hr

theorem State.setRegFlag_keeps (s : State) (x : Nibble) (b : Byte) (c : Bool) :
    KeepsAllBut [.v] s (s.setRegFlag x b c) := by
  intro p hp
  have htwice : p ∉ [Piece.v] ++ [Piece.v] := by simpa using hp
  exact (s.setReg_keeps x b).trans (State.setReg_keeps _ vf _) p htwice

theorem State.setRegFlag_keepsRegs (s : State) (x : Nibble) (b : Byte) (c : Bool) :
    KeepsRegsBut (fun r => r = x ∨ r = 15) s (s.setRegFlag x b c) := by
  intro r hr
  obtain ⟨hx, hf⟩ := not_or.mp hr
  exact s.setRegFlag_other b c hx hf

/-! The two flags and the difference, in the numbers the bytes are. -/

theorem flagByte_carryOf (a b : Byte) :
    flagByte (carryOf a b) = if a.toNat + b.toNat > 255 then 1 else 0 := by
  simp only [flagByte, carryOf, decide_eq_true_eq]

theorem flagByte_noBorrowOf (a b : Byte) :
    flagByte (noBorrowOf a b) = if a.toNat ≥ b.toNat then 1 else 0 := by
  simp only [flagByte, noBorrowOf, decide_eq_true_eq]

/-- Subtraction wraps modulo 256 (42_alu.md R90). -/
theorem toNat_byte_sub (a b : Byte) : (a - b).toNat = (a.toNat + 256 - b.toNat) % 256 := by
  have hb := b.isLt
  rw [BitVec.toNat_sub]
  congr 1
  omega

/-! The statements -/

/-- Settles O38: both are one `setReg`. -/
theorem loadAndAddImmediate : Obligations.LoadAndAddImmediate := by
  intro x kk s
  refine ⟨decodeWord_ldImm x kk, decodeWord_addImm x kk,
    ⟨_, rfl, s.reg_setReg_same x kk, s.setReg_keepsRegs x _, s.setReg_keeps x _⟩,
    ⟨_, rfl, ?_, s.setReg_keepsRegs x _, s.setReg_keeps x _⟩⟩
  rw [State.reg_setReg_same, BitVec.toNat_add]

/-- Settles O39: each is one `setReg`, of a byte whose bits are those the rule gives. -/
theorem copyAndLogic : Obligations.CopyAndLogic := by
  intro x y s
  refine ⟨decodeWord_ldReg x y, decodeWord_orReg x y, decodeWord_andReg x y, decodeWord_xorReg x y,
    ⟨_, rfl, s.reg_setReg_same x _, s.setReg_keepsRegs x _, s.setReg_keeps x _⟩,
    ⟨_, rfl, s.setReg_keepsRegs x _, s.setReg_keeps x _, fun k => ?or⟩,
    ⟨_, rfl, s.setReg_keepsRegs x _, s.setReg_keeps x _, fun k => ?and⟩,
    ⟨_, rfl, s.setReg_keepsRegs x _, s.setReg_keeps x _, fun k => ?xor⟩⟩
  case or => rw [State.reg_setReg_same, BitVec.getLsbD_or]
  case and => rw [State.reg_setReg_same, BitVec.getLsbD_and]
  case xor => rw [State.reg_setReg_same, BitVec.getLsbD_xor]

/-- Settles O40: the addition is `setRegFlag` of the sum and the carry. -/
theorem addSetsCarry : Obligations.AddSetsCarry := by
  intro x y s
  refine ⟨decodeWord_addReg x y, _, rfl, ?flag, fun hx => ?sum,
    s.setRegFlag_keepsRegs x _ _, s.setRegFlag_keeps x _ _⟩
  case flag => exact (s.setRegFlag_vf x _ _).trans (flagByte_carryOf _ _)
  case sum => rw [s.setRegFlag_dest _ _ hx, BitVec.toNat_add]

/-- Settles O41: the subtraction is `setRegFlag` of the difference and the absence of a borrow. -/
theorem subSetsNoBorrow : Obligations.SubSetsNoBorrow := by
  intro x y s
  refine ⟨decodeWord_sub x y, _, rfl, ?flag, fun hx => ?difference,
    s.setRegFlag_keepsRegs x _ _, s.setRegFlag_keeps x _ _⟩
  case flag => exact (s.setRegFlag_vf x _ _).trans (flagByte_noBorrowOf _ _)
  case difference => rw [s.setRegFlag_dest _ _ hx, toNat_byte_sub]

end Sys2Proof.Machine
end

section
/-! PROOFS. The index register and memory: loading `I`, the digits of a byte, the register dump and the register
load (43_index_memory.md R111, R114 to R116). -/

namespace Sys2Proof.Machine

/-! The words of these instructions (30_encoding.md R59). -/

theorem decodeWord_ldI (nnn : Imm12) : decodeWord (packA 0xA nnn) = some (.ldI nnn) := by
  simp [decodeWord]

theorem decodeWord_ldB (x : Nibble) : decodeWord (packXK 0xF x 0x33) = some (.ldB x) := by
  simp [decodeWord, decodeFamilyF]

theorem decodeWord_ldMemVx (x : Nibble) : decodeWord (packXK 0xF x 0x55) = some (.ldMemVx x) := by
  simp [decodeWord, decodeFamilyF]

theorem decodeWord_ldVxMem (x : Nibble) : decodeWord (packXK 0xF x 0x65) = some (.ldVxMem x) := by
  simp [decodeWord, decodeFamilyF]

/-! What a write of `I`, of memory and of the registers leaves unchanged. -/

theorem State.setI_keeps (s : State) (w : Word) : KeepsAllBut [.i] s (s.setI w) := by
  intro p hp
  cases p with
  | i => simp at hp
  | _ => simp [SamePiece, State.memRead, State.reg]

theorem State.store_keeps (s : State) (a : Nat) (l : List Byte) : KeepsAllBut [.mem] s (s.store a l) := by
  intro p hp
  cases p with
  | mem => simp at hp
  | _ => simp [SamePiece, State.reg]

theorem State.setRegs_keeps (s : State) (v : Vector Byte 16) : KeepsAllBut [.v] s (s.setRegs v) := by
  intro p hp
  cases p with
  | v => simp at hp
  | _ => simp [SamePiece, State.memRead]

/-! What a store writes. -/

theorem State.store_keepsMem (s : State) (a : Nat) (l : List Byte) :
    KeepsMemBut a l.length s (s.store a l) :=
  fun c hc => Memory.read_writeList_other s.mem a c l hc

theorem State.memRead_store_same {s : State} (a k : Nat) (l : List Byte) (hm : Memory.wf s.mem = true)
    (hl : l.length ≤ 4096) (hk : k < l.length) : (s.store a l).memRead (a + k) = l[k] :=
  Memory.read_writeList_same a k l hm hl hk

/-! The bytes the two stores write (R114, R115). -/

/-- No digit of a byte is cut off by its cell. -/
theorem map_toNat_bcdDigits (b : Byte) :
    (bcdDigits b).map BitVec.toNat = [b.toNat / 100, b.toNat / 10 % 10, b.toNat % 10] := by
  have hb := b.isLt
  have hundreds : b.toNat / 100 < 2 ^ 8 := by omega
  have tens : b.toNat / 10 % 10 < 2 ^ 8 := by omega
  have ones : b.toNat % 10 < 2 ^ 8 := by omega
  simp only [bcdDigits, List.map_cons, List.map_nil, BitVec.toNat_ofNat, Nat.mod_eq_of_lt hundreds,
    Nat.mod_eq_of_lt tens, Nat.mod_eq_of_lt ones]

@[simp] theorem State.regsUpTo_length (s : State) (x : Nibble) : (s.regsUpTo x).length = x.toNat + 1 := by
  have hx := x.isLt
  simp only [State.regsUpTo, List.length_take, Vector.length_toList]
  omega

theorem State.getElem_regsUpTo (s : State) (x k : Nibble) (h : k.toNat < (s.regsUpTo x).length) :
    (s.regsUpTo x)[k.toNat] = s.reg k := by
  simp [State.regsUpTo, State.reg]

/-! The registers a load writes (R116). -/

/-- After a string of registers is written from V0 on, a register below its end holds its byte. -/
theorem State.reg_setRegs_writeRegs_of_lt (s : State) (l : List Byte) (k : Nibble) (h : k.toNat < l.length) :
    (s.setRegs (writeRegs s.v 0 l)).reg k = l[k.toNat] := by
  simp [State.reg, getElem_writeRegs, h]

/-- A register from the end of the string on keeps its byte. -/
theorem State.reg_setRegs_writeRegs_of_le (s : State) (l : List Byte) (k : Nibble) (h : l.length ≤ k.toNat) :
    (s.setRegs (writeRegs s.v 0 l)).reg k = s.reg k := by
  simp [State.reg, getElem_writeRegs, Nat.not_lt.mpr h]

/-! The statements -/

/-- Settles O47: the store writes the three digits, and each is read back at its own offset. -/
theorem ldBStoresThreeDigits : Obligations.LdBStoresThreeDigits := by
  intro x s
  refine ⟨decodeWord_ldB x, fun hm => ?_⟩
  have digit (k : Nat) (hk : k < 3) : ((s.store s.base (bcdDigits (s.reg x))).memRead (s.i.toNat + k)).toNat =
      [(s.reg x).toNat / 100, (s.reg x).toNat / 10 % 10, (s.reg x).toNat % 10][k] := by
    have hread := State.memRead_store_same s.i.toNat k (bcdDigits (s.reg x)) hm (by simp [bcdDigits]) hk
    simp only [← map_toNat_bcdDigits, List.getElem_map]
    exact congrArg BitVec.toNat hread
  exact ⟨_, rfl, digit 0 (by decide), digit 1 (by decide), digit 2 (by decide),
    s.store_keepsMem s.base (bcdDigits (s.reg x)), s.store_keeps _ _⟩

/-- Settles O48: the store writes the `x + 1` registers, and each is read back at its own offset. -/
theorem ldMemVxDumpsRegisters : Obligations.LdMemVxDumpsRegisters := by
  intro x s
  refine ⟨decodeWord_ldMemVx x, fun hm => ⟨_, rfl, fun k hk => ?dumped, ?rest, s.store_keeps _ _⟩⟩
  case dumped =>
    have hx := x.isLt
    have hlt : k.toNat < (s.regsUpTo x).length := by
      rw [State.regsUpTo_length]
      exact Nat.lt_succ_of_le hk
    have hle : (s.regsUpTo x).length ≤ 4096 := by
      rw [State.regsUpTo_length]
      omega
    exact (State.memRead_store_same s.base k.toNat _ hm hle hlt).trans (s.getElem_regsUpTo x k hlt)
  case rest =>
    have hmem := s.store_keepsMem s.base (s.regsUpTo x)
    rwa [State.regsUpTo_length] at hmem

/-- Settles O49: the load writes `x + 1` bytes of memory over V0 to Vx; a register above x lies past their
end. -/
theorem ldVxMemLoadsRegisters : Obligations.LdVxMemLoadsRegisters := by
  intro x s
  refine ⟨decodeWord_ldVxMem x, _, rfl, fun k hk => ?loaded, fun k hk => ?above, s.setRegs_keeps _⟩
  case loaded =>
    have hlt : k.toNat < (Memory.readList s.mem s.base (x.toNat + 1)).length := by
      rw [Memory.readList_length]
      exact Nat.lt_succ_of_le hk
    exact (s.reg_setRegs_writeRegs_of_lt _ k hlt).trans (Memory.getElem_readList s.mem s.base _ _ hlt)
  case above =>
    refine s.reg_setRegs_writeRegs_of_le _ k ?_
    rw [Memory.readList_length]
    exact Nat.lt_of_not_le hk

/-- Settles O45: the load is `setI` of the zero-extended immediate. -/
theorem ldILoadsTheAddress : Obligations.LdILoadsTheAddress := by
  intro nnn s
  exact ⟨decodeWord_ldI nnn, _, rfl, toNat_zextNnn nnn, s.setI_keeps _⟩

end Sys2Proof.Machine
end

section
/-! PROOFS. The display: clearing the screen (44_display.md R126). -/

namespace Sys2Proof.Machine

/-- The word of the instruction (30_encoding.md R59). -/
theorem decodeWord_cls (ign : Nibble) : decodeWord (packXK 0x0 ign 0xE0) = some (.cls ign) := by
  simp [decodeWord, decodeFamily0]

theorem State.setFb_keeps (s : State) (fb : Framebuffer) : KeepsAllBut [.fb] s (s.setFb fb) := by
  intro p hp
  cases p with
  | fb => simp at hp
  | _ => simp [SamePiece, State.memRead, State.reg]

/-- Settles O52: the instruction is `setFb` of the framebuffer with every pixel off. -/
theorem clsClearsTheScreen : Obligations.ClsClearsTheScreen := by
  intro ign s
  exact ⟨decodeWord_cls ign, _, rfl, Framebuffer.pixel_clear, s.setFb_keeps _⟩

end Sys2Proof.Machine
end

section
/-! PROOFS. The key wait (45_keys_timers.md R141 to R145). -/

namespace Sys2Proof.Machine

/-! The two things `LD Vx,K` can do, and the two things a waiting step can do. -/

theorem exec_ldVxK_of_some {x : Nibble} {s : State} {k : Byte} (h : s.lowestKey = some k) :
    exec (.ldVxK x) s = .next (s.setReg x k) := by
  simp only [exec, execLdVxK, h]

theorem exec_ldVxK_of_none {x : Nibble} {s : State} (h : s.lowestKey = none) :
    exec (.ldVxK x) s = .next ((s.setWait (.awaitingKey x)).setPc (s.pc - 2)) := by
  simp only [exec, execLdVxK, h]

theorem waitingStep_of_some {r : Nibble} {s : State} {k : Byte} (h : s.lowestKey = some k) :
    waitingStep r s = ((s.setReg r k).setWait .running).setPc (s.pc + 2) := by
  simp only [waitingStep, h]

theorem waitingStep_of_none {r : Nibble} {s : State} (h : s.lowestKey = none) : waitingStep r s = s := by
  simp only [waitingStep, h]

theorem State.setWait_keeps (s : State) (w : Wait) : KeepsAllBut [.wait] s (s.setWait w) := by
  intro p hp
  cases p with
  | wait => simp at hp
  | _ => simp [SamePiece, State.memRead, State.reg]

/-! The steps of a waiting core (R143), and the step that enters the wait (R141). -/

section
variable {s : State} {r : Nibble} (hf : s.fault = none)
include hf

theorem step_waiting_of_no_key (hw : s.wait = .awaitingKey r)
    (hup : ∀ j, (h : j < 16) → s.keys[j] = false) : step s = .next s := by
  rw [step_of_waiting s r hf hw, waitingStep_of_none (s.lowestKey_eq_none hup)]

theorem step_waiting_of_key (hw : s.wait = .awaitingKey r) {k : Nat} (hk : k < 16)
    (hdown : s.keys[k] = true) (hlow : ∀ j, (h : j < k) → s.keys[j] = false) :
    step s = .next (((s.setReg r (BitVec.ofNat 8 k)).setWait .running).setPc (s.pc + 2)) := by
  rw [step_of_waiting s r hf hw, waitingStep_of_some (s.lowestKey_eq_some k hk hdown hlow)]

/-- The wait is entered with the advance undone: `PC` is the address of the instruction. -/
theorem step_ldVxK_of_no_key (hw : s.wait = .running) (hd : decodeWord s.fetchWord = some (.ldVxK r))
    (hup : ∀ j, (h : j < 16) → s.keys[j] = false) :
    step s = .next ((s.advance.setWait (.awaitingKey r)).setPc s.pc) := by
  have hback : s.advance.pc - 2 = s.pc := BitVec.add_sub_cancel s.pc 2
  rw [step_of_running s hf hw, fetchAndExecute_of_some s _ hd,
    exec_ldVxK_of_none (s.advance.lowestKey_eq_none hup), hback]

end

/-- Settles O10: a waiting step finds the lowest key or none. The step that enters the wait answers a waiting,
unfaulted state with the same keys and `PC`, to which the waiting steps then apply. -/
theorem waitingStepHoldsOrResolves : Obligations.WaitingStepHoldsOrResolves := by
  refine ⟨fun s r hf hw => ⟨fun hup => ?holds, fun k hk hdown hlow => ?resolves⟩,
    fun s x hf hw hd hup => ?enters⟩
  case holds => exact step_waiting_of_no_key hf hw hup
  case resolves =>
    exact ⟨_, step_waiting_of_key hf hw hk hdown hlow, s.reg_setReg_same r _, rfl, rfl,
      s.setReg_keepsRegs r _,
      ((s.setReg_keeps r _).trans (State.setWait_keeps _ _)).trans (State.setPc_keeps _ _)⟩
  case enters =>
    refine ⟨_, step_ldVxK_of_no_key hf hw hd hup, rfl, rfl, step_waiting_of_no_key hf rfl hup,
      fun keys k hk hdown hlow => ?_⟩
    have hstep := step_waiting_of_key
      (s := ((s.advance.setWait (.awaitingKey x)).setPc s.pc).setKeys keys) hf rfl hk hdown hlow
    exact ⟨_, hstep, State.reg_setReg_same _ x _, rfl, rfl⟩

end Sys2Proof.Machine
end

section
/-! PROOFS. The timers: the three copies, and that no instruction reads `ST` (45_keys_timers.md R138 to
R140). -/

namespace Sys2Proof.Machine

/-! The words of these instructions (30_encoding.md R59). -/

theorem decodeWord_ldVxDt (x : Nibble) : decodeWord (packXK 0xF x 0x07) = some (.ldVxDt x) := by
  simp [decodeWord, decodeFamilyF]

theorem decodeWord_ldDtVx (x : Nibble) : decodeWord (packXK 0xF x 0x15) = some (.ldDtVx x) := by
  simp [decodeWord, decodeFamilyF]

theorem decodeWord_ldStVx (x : Nibble) : decodeWord (packXK 0xF x 0x18) = some (.ldStVx x) := by
  simp [decodeWord, decodeFamilyF]

/-! What a write of a timer leaves unchanged. -/

theorem State.setDt_keeps (s : State) (b : Byte) : KeepsAllBut [.dt] s (s.setDt b) := by
  intro p hp
  cases p with
  | dt => simp at hp
  | _ => simp [SamePiece, State.memRead, State.reg]

theorem State.setSt_keeps (s : State) (b : Byte) : KeepsAllBut [.st] s (s.setSt b) := by
  intro p hp
  cases p with
  | st => simp at hp
  | _ => simp [SamePiece, State.memRead, State.reg]

/-! The tick and the sound signal, in the numbers the timers are (60_exceptions.md R163, 10_state.md R28). -/

theorem toNat_countDown (b : Byte) : (countDown b).toNat = b.toNat - 1 := by
  unfold countDown
  split
  next hzero => rw [hzero]; rfl
  next hne =>
    have hpos : b.toNat ≠ 0 := fun h => hne (BitVec.eq_of_toNat_eq h)
    have hone : (1 : Byte) ≤ b := Nat.one_le_iff_ne_zero.mpr hpos
    exact BitVec.toNat_sub_of_le hone

theorem State.soundOn_iff (s : State) : s.soundOn = true ↔ s.st ≠ 0 := by
  have hzero : s.st.toNat = 0 ↔ s.st = 0 := BitVec.toNat_inj (y := 0)
  rw [State.soundOn, decide_eq_true_eq, gt_iff_lt, Nat.pos_iff_ne_zero, ne_eq, hzero]

/-- One tick ends the sound of a sound timer at 1. -/
theorem State.soundOn_tickTimers_of_one (s : State) (h : s.st = 1) : s.tickTimers.soundOn = false := by
  simp [State.soundOn, toNat_countDown, h]

/-! No instruction reads `ST` (R140): its meaning is the same whatever `ST` holds. -/

theorem State.skipIf_setSt (s : State) (b : Byte) (c : Bool) :
    (s.setSt b).skipIf c = (s.skipIf c).setSt b := by
  rw [State.skipIf_eq, State.skipIf_eq]
  rfl

theorem exec_call_setSt {nnn : Imm12} {s t : State} (b : Byte) (h : exec (.call nnn) s = .next t) :
    exec (.call nnn) (s.setSt b) = .next (t.setSt b) := by
  rcases Nat.lt_or_ge s.sp.val 16 with hlt | hge
  · rw [exec_call_of_lt nnn s hlt] at h
    cases h
    exact exec_call_of_lt nnn (s.setSt b) hlt
  · have hfull : s.sp.val = 16 := by omega
    rw [exec_call_of_full nnn s hfull] at h
    cases h
    exact exec_call_of_full nnn (s.setSt b) hfull

theorem exec_ret_setSt {ign : Nibble} {s t : State} (b : Byte) (h : exec (.ret ign) s = .next t) :
    exec (.ret ign) (s.setSt b) = .next (t.setSt b) := by
  rcases Nat.eq_zero_or_pos s.sp.val with hempty | hpos
  · rw [exec_ret_of_empty ign s hempty] at h
    cases h
    exact exec_ret_of_empty ign (s.setSt b) hempty
  · rw [exec_ret_of_pos ign s hpos] at h
    cases h
    exact exec_ret_of_pos ign (s.setSt b) hpos

theorem exec_ldVxK_setSt {x : Nibble} {s t : State} (b : Byte) (h : exec (.ldVxK x) s = .next t) :
    exec (.ldVxK x) (s.setSt b) = .next (t.setSt b) := by
  have hkey : (s.setSt b).lowestKey = s.lowestKey := rfl
  cases hlow : s.lowestKey with
  | none =>
    rw [exec_ldVxK_of_none hlow] at h
    cases h
    exact exec_ldVxK_of_none (hkey.trans hlow)
  | some k =>
    rw [exec_ldVxK_of_some hlow] at h
    cases h
    exact exec_ldVxK_of_some (hkey.trans hlow)

/-- The six skips go through `skipIf`; `CALL`, `RET` and `LD Vx,K` branch on the stack and the keys; every other
meaning is one update of fields other than `ST`. -/
theorem exec_setSt {i : Instr} {s t : State} (b : Byte) (hi : ∀ z, i ≠ .ldStVx z)
    (h : exec i s = .next t) : exec i (s.setSt b) = .next (t.setSt b) := by
  cases i with
  | ldStVx z => exact absurd rfl (hi z)
  | call => exact exec_call_setSt b h
  | ret => exact exec_ret_setSt b h
  | ldVxK => exact exec_ldVxK_setSt b h
  | seImm | sneImm | seReg | sneReg | skp | sknp =>
    cases h
    exact congrArg _ (s.skipIf_setSt b _)
  | _ =>
    cases h
    rfl

/-- Settles O58: the copies are `setReg`, `setDt` and `setSt`. -/
theorem timersAreCopied : Obligations.TimersAreCopied := by
  intro x s
  exact ⟨decodeWord_ldVxDt x, decodeWord_ldDtVx x, decodeWord_ldStVx x,
    ⟨_, rfl, s.reg_setReg_same x _, s.setReg_keepsRegs x _, s.setReg_keeps x _⟩,
    ⟨_, rfl, rfl, s.setDt_keeps _, toNat_countDown (s.reg x)⟩,
    ⟨_, rfl, rfl, s.setSt_keeps _, State.soundOn_iff _, State.soundOn_tickTimers_of_one (s.setSt _)⟩,
    fun _ b _ hi h => exec_setSt b hi h⟩

end Sys2Proof.Machine
end

section
/-! PROOFS. The timer tick (60_exceptions.md R163, 45_keys_timers.md R146). -/

namespace Sys2Proof.Machine

/-- A tick is one write of `DT` and one of `ST`; no branch looks at the fault latch or the key-wait marker. -/
theorem State.tickTimers_eq (s : State) :
    s.tickTimers = (s.setDt (countDown s.dt)).setSt (countDown s.st) := rfl

theorem State.tickTimers_keeps (s : State) : KeepsAllBut [.dt, .st] s s.tickTimers := by
  rw [s.tickTimers_eq]
  exact (s.setDt_keeps _).trans (State.setSt_keeps _ _)

/-- Settles O19: both timers count down by the one `countDown`, and the two writes keep every other piece. -/
theorem tickCountsBothTimersDown : Obligations.TickCountsBothTimersDown := by
  intro s
  exact ⟨toNat_countDown s.dt, toNat_countDown s.st, s.tickTimers_keeps⟩

end Sys2Proof.Machine
end

section
/-! PROOFS. The decoder and the encoder: each undoes the other, and the rows and words they know
(30_encoding.md R50 to R59). -/

namespace Sys2Proof.Machine

/-! The words of the instructions not met above (30_encoding.md R59). -/

theorem decodeWord_shr (x y : Nibble) : decodeWord (packXYN 0x8 x y 0x6) = some (.shr x y) := by
  simp [decodeWord, decodeFamily8]

theorem decodeWord_subn (x y : Nibble) : decodeWord (packXYN 0x8 x y 0x7) = some (.subn x y) := by
  simp [decodeWord, decodeFamily8]

theorem decodeWord_shl (x y : Nibble) : decodeWord (packXYN 0x8 x y 0xE) = some (.shl x y) := by
  simp [decodeWord, decodeFamily8]

theorem decodeWord_jpV0 (nnn : Imm12) : decodeWord (packA 0xB nnn) = some (.jpV0 nnn) := by
  simp [decodeWord]

theorem decodeWord_rnd (x : Nibble) (kk : Byte) : decodeWord (packXK 0xC x kk) = some (.rnd x kk) := by
  simp [decodeWord]

theorem decodeWord_drw (x y n : Nibble) : decodeWord (packXYN 0xD x y n) = some (.drw x y n) := by
  simp [decodeWord]

theorem decodeWord_skp (x : Nibble) : decodeWord (packXK 0xE x 0x9E) = some (.skp x) := by
  simp [decodeWord, decodeFamilyE]

theorem decodeWord_sknp (x : Nibble) : decodeWord (packXK 0xE x 0xA1) = some (.sknp x) := by
  simp [decodeWord, decodeFamilyE]

theorem decodeWord_ldVxK (x : Nibble) : decodeWord (packXK 0xF x 0x0A) = some (.ldVxK x) := by
  simp [decodeWord, decodeFamilyF]

theorem decodeWord_addI (x : Nibble) : decodeWord (packXK 0xF x 0x1E) = some (.addI x) := by
  simp [decodeWord, decodeFamilyF]

theorem decodeWord_ldF (x : Nibble) : decodeWord (packXK 0xF x 0x29) = some (.ldF x) := by
  simp [decodeWord, decodeFamilyF]

/-! Decoding undoes encoding, and encoding undoes decoding. -/

@[simp] theorem decodeWord_encode : ∀ i : Instr, decodeWord (encode i) = some i
  | .cls ign => decodeWord_cls ign
  | .ret ign => decodeWord_ret ign
  | .jp nnn => decodeWord_jp nnn
  | .call nnn => decodeWord_call nnn
  | .seImm x kk => decodeWord_seImm x kk
  | .sneImm x kk => decodeWord_sneImm x kk
  | .seReg x y ign => decodeWord_seReg x y ign
  | .ldImm x kk => decodeWord_ldImm x kk
  | .addImm x kk => decodeWord_addImm x kk
  | .ldReg x y => decodeWord_ldReg x y
  | .orReg x y => decodeWord_orReg x y
  | .andReg x y => decodeWord_andReg x y
  | .xorReg x y => decodeWord_xorReg x y
  | .addReg x y => decodeWord_addReg x y
  | .sub x y => decodeWord_sub x y
  | .shr x y => decodeWord_shr x y
  | .subn x y => decodeWord_subn x y
  | .shl x y => decodeWord_shl x y
  | .sneReg x y ign => decodeWord_sneReg x y ign
  | .ldI nnn => decodeWord_ldI nnn
  | .jpV0 nnn => decodeWord_jpV0 nnn
  | .rnd x kk => decodeWord_rnd x kk
  | .drw x y n => decodeWord_drw x y n
  | .skp x => decodeWord_skp x
  | .sknp x => decodeWord_sknp x
  | .ldVxDt x => decodeWord_ldVxDt x
  | .ldVxK x => decodeWord_ldVxK x
  | .ldDtVx x => decodeWord_ldDtVx x
  | .ldStVx x => decodeWord_ldStVx x
  | .addI x => decodeWord_addI x
  | .ldF x => decodeWord_ldF x
  | .ldB x => decodeWord_ldB x
  | .ldMemVx x => decodeWord_ldMemVx x
  | .ldVxMem x => decodeWord_ldVxMem x

/-- Settles O2: the words of the 34 rows, one by one. -/
theorem decodeOfEncodeIsTheInstruction : Obligations.DecodeOfEncodeIsTheInstruction :=
  decodeWord_encode

section
variable {w : Word} {i : Instr}

theorem encode_of_decodeFamily0 (ho : Word.op w = 0x0) (h : decodeFamily0 w = some i) : encode i = w := by
  unfold decodeFamily0 at h
  split_ifs at h
  all_goals
    cases h
    exact packXK_of ho ‹_›

theorem encode_of_decodeFamily8 (ho : Word.op w = 0x8) (h : decodeFamily8 w = some i) : encode i = w := by
  unfold decodeFamily8 at h
  split_ifs at h
  all_goals
    cases h
    exact packXYN_of ho ‹_›

theorem encode_of_decodeFamilyE (ho : Word.op w = 0xE) (h : decodeFamilyE w = some i) : encode i = w := by
  unfold decodeFamilyE at h
  split_ifs at h
  all_goals
    cases h
    exact packXK_of ho ‹_›

theorem encode_of_decodeFamilyF (ho : Word.op w = 0xF) (h : decodeFamilyF w = some i) : encode i = w := by
  unfold decodeFamilyF at h
  split_ifs at h
  all_goals
    cases h
    exact packXK_of ho ‹_›

end

/-- The four polymorphic families go to their own lemmas; in every other family `op` is the only fixed field. -/
theorem encode_of_decodeWord {w : Word} {i : Instr} (h : decodeWord w = some i) : encode i = w := by
  rcases nibble_cases (Word.op w) with
    ho | ho | ho | ho | ho | ho | ho | ho | ho | ho | ho | ho | ho | ho | ho | ho <;>
    simp only [decodeWord, ho, BitVec.reduceEq, reduceIte, Option.some.injEq] at h
  · exact encode_of_decodeFamily0 ho h
  · exact h ▸ packA_of ho
  · exact h ▸ packA_of ho
  · exact h ▸ packXK_of ho rfl
  · exact h ▸ packXK_of ho rfl
  · exact h ▸ packXYN_of ho rfl
  · exact h ▸ packXK_of ho rfl
  · exact h ▸ packXK_of ho rfl
  · exact encode_of_decodeFamily8 ho h
  · exact h ▸ packXYN_of ho rfl
  · exact h ▸ packA_of ho
  · exact h ▸ packA_of ho
  · exact h ▸ packXK_of ho rfl
  · exact h ▸ packXYN_of ho rfl
  · exact encode_of_decodeFamilyE ho h
  · exact encode_of_decodeFamilyF ho h

/-- Settles O3: a word that decodes is packed again from the fields the decoder read. -/
theorem encodeOfDecodeIsTheWord : Obligations.EncodeOfDecodeIsTheWord :=
  fun _ _ => encode_of_decodeWord

/-! The rows of the opcode map. A mask fixes `op`, and in three of the polymorphic families the whole of `kk`, in
the fourth `n`; the fields that are fixed make the word of an instruction of the row. -/

theorem op_and (w m : Word) : Word.op (w &&& m) = Word.op w &&& Word.op m := BitVec.extractLsb'_and ..

theorem kk_and (w m : Word) : Word.kk (w &&& m) = Word.kk w &&& Word.kk m := BitVec.extractLsb'_and ..

theorem n_and (w m : Word) : Word.n (w &&& m) = Word.n w &&& Word.n m := BitVec.extractLsb'_and ..

section
variable {w c : Word}

theorem op_of_and_mask {m : Word} (hm : Word.op m = 0xF) (h : w &&& m = c) : Word.op w = Word.op c := by
  rw [← h, op_and, hm]
  exact BitVec.and_allOnes.symm

theorem kk_of_and_mask {m : Word} (hm : Word.kk m = 0xFF) (h : w &&& m = c) : Word.kk w = Word.kk c := by
  rw [← h, kk_and, hm]
  exact BitVec.and_allOnes.symm

theorem n_of_and_mask {m : Word} (hm : Word.n m = 0xF) (h : w &&& m = c) : Word.n w = Word.n c := by
  rw [← h, n_and, hm]
  exact BitVec.and_allOnes.symm

theorem packA_of_mask {o : Nibble} (h : w &&& 0xF000 = packA o 0) : packA o (Word.nnn w) = w :=
  packA_of ((op_of_and_mask rfl h).trans (op_packA ..))

theorem packXK_of_op_mask {o : Nibble} (h : w &&& 0xF000 = packXK o 0 0) :
    packXK o (Word.x w) (Word.kk w) = w :=
  packXK_of ((op_of_and_mask rfl h).trans (op_packXK ..)) rfl

theorem packXYN_of_op_mask {o : Nibble} (h : w &&& 0xF000 = packXYN o 0 0 0) :
    packXYN o (Word.x w) (Word.y w) (Word.n w) = w :=
  packXYN_of ((op_of_and_mask rfl h).trans (op_packXYN ..)) rfl

theorem packXK_of_key_mask {o : Nibble} {k : Byte} (h : w &&& 0xF0FF = packXK o 0 k) :
    packXK o (Word.x w) k = w :=
  packXK_of ((op_of_and_mask rfl h).trans (op_packXK ..)) ((kk_of_and_mask rfl h).trans (kk_packXK ..))

theorem packXYN_of_key_mask {o k : Nibble} (h : w &&& 0xF00F = packXYN o 0 0 k) :
    packXYN o (Word.x w) (Word.y w) k = w :=
  packXYN_of ((op_of_and_mask rfl h).trans (op_packXYN ..)) ((n_of_and_mask rfl h).trans (n_packXYN ..))

end

/-- A word that satisfies a row is the word of an instruction of that row, with its own fields as operands. -/
theorem exists_encode_of_row (w : Word) : ∀ i : Instr, w &&& i.row.2 = i.row.1 →
    ∃ j : Instr, encode j = w ∧ j.row = i.row
  | .cls _, h => ⟨.cls (Word.x w), packXK_of_key_mask h, rfl⟩
  | .ret _, h => ⟨.ret (Word.x w), packXK_of_key_mask h, rfl⟩
  | .jp _, h => ⟨.jp (Word.nnn w), packA_of_mask h, rfl⟩
  | .call _, h => ⟨.call (Word.nnn w), packA_of_mask h, rfl⟩
  | .seImm _ _, h => ⟨.seImm (Word.x w) (Word.kk w), packXK_of_op_mask h, rfl⟩
  | .sneImm _ _, h => ⟨.sneImm (Word.x w) (Word.kk w), packXK_of_op_mask h, rfl⟩
  | .seReg _ _ _, h => ⟨.seReg (Word.x w) (Word.y w) (Word.n w), packXYN_of_op_mask h, rfl⟩
  | .ldImm _ _, h => ⟨.ldImm (Word.x w) (Word.kk w), packXK_of_op_mask h, rfl⟩
  | .addImm _ _, h => ⟨.addImm (Word.x w) (Word.kk w), packXK_of_op_mask h, rfl⟩
  | .ldReg _ _, h => ⟨.ldReg (Word.x w) (Word.y w), packXYN_of_key_mask h, rfl⟩
  | .orReg _ _, h => ⟨.orReg (Word.x w) (Word.y w), packXYN_of_key_mask h, rfl⟩
  | .andReg _ _, h => ⟨.andReg (Word.x w) (Word.y w), packXYN_of_key_mask h, rfl⟩
  | .xorReg _ _, h => ⟨.xorReg (Word.x w) (Word.y w), packXYN_of_key_mask h, rfl⟩
  | .addReg _ _, h => ⟨.addReg (Word.x w) (Word.y w), packXYN_of_key_mask h, rfl⟩
  | .sub _ _, h => ⟨.sub (Word.x w) (Word.y w), packXYN_of_key_mask h, rfl⟩
  | .shr _ _, h => ⟨.shr (Word.x w) (Word.y w), packXYN_of_key_mask h, rfl⟩
  | .subn _ _, h => ⟨.subn (Word.x w) (Word.y w), packXYN_of_key_mask h, rfl⟩
  | .shl _ _, h => ⟨.shl (Word.x w) (Word.y w), packXYN_of_key_mask h, rfl⟩
  | .sneReg _ _ _, h => ⟨.sneReg (Word.x w) (Word.y w) (Word.n w), packXYN_of_op_mask h, rfl⟩
  | .ldI _, h => ⟨.ldI (Word.nnn w), packA_of_mask h, rfl⟩
  | .jpV0 _, h => ⟨.jpV0 (Word.nnn w), packA_of_mask h, rfl⟩
  | .rnd _ _, h => ⟨.rnd (Word.x w) (Word.kk w), packXK_of_op_mask h, rfl⟩
  | .drw _ _ _, h => ⟨.drw (Word.x w) (Word.y w) (Word.n w), packXYN_of_op_mask h, rfl⟩
  | .skp _, h => ⟨.skp (Word.x w), packXK_of_key_mask h, rfl⟩
  | .sknp _, h => ⟨.sknp (Word.x w), packXK_of_key_mask h, rfl⟩
  | .ldVxDt _, h => ⟨.ldVxDt (Word.x w), packXK_of_key_mask h, rfl⟩
  | .ldVxK _, h => ⟨.ldVxK (Word.x w), packXK_of_key_mask h, rfl⟩
  | .ldDtVx _, h => ⟨.ldDtVx (Word.x w), packXK_of_key_mask h, rfl⟩
  | .ldStVx _, h => ⟨.ldStVx (Word.x w), packXK_of_key_mask h, rfl⟩
  | .addI _, h => ⟨.addI (Word.x w), packXK_of_key_mask h, rfl⟩
  | .ldF _, h => ⟨.ldF (Word.x w), packXK_of_key_mask h, rfl⟩
  | .ldB _, h => ⟨.ldB (Word.x w), packXK_of_key_mask h, rfl⟩
  | .ldMemVx _, h => ⟨.ldMemVx (Word.x w), packXK_of_key_mask h, rfl⟩
  | .ldVxMem _, h => ⟨.ldVxMem (Word.x w), packXK_of_key_mask h, rfl⟩

open Laws in
/-- The word of an instruction satisfies the instruction's own row. -/
theorem encode_and_mask : ∀ i : Instr, encode i &&& i.row.2 = i.row.1
  | .cls ign => TableRow.cls ign
  | .ret ign => TableRow.ret ign
  | .jp nnn => TableRow.jp nnn
  | .call nnn => TableRow.call nnn
  | .seImm x kk => TableRow.seImm x kk
  | .sneImm x kk => TableRow.sneImm x kk
  | .seReg x y ign => TableRow.seReg x y ign
  | .ldImm x kk => TableRow.ldImm x kk
  | .addImm x kk => TableRow.addImm x kk
  | .ldReg x y => TableRow.ldReg x y
  | .orReg x y => TableRow.orReg x y
  | .andReg x y => TableRow.andReg x y
  | .xorReg x y => TableRow.xorReg x y
  | .addReg x y => TableRow.addReg x y
  | .sub x y => TableRow.sub x y
  | .shr x y => TableRow.shr x y
  | .subn x y => TableRow.subn x y
  | .shl x y => TableRow.shl x y
  | .sneReg x y ign => TableRow.sneReg x y ign
  | .ldI nnn => TableRow.ldI nnn
  | .jpV0 nnn => TableRow.jpV0 nnn
  | .rnd x kk => TableRow.rnd x kk
  | .drw x y n => TableRow.drw x y n
  | .skp x => TableRow.skp x
  | .sknp x => TableRow.sknp x
  | .ldVxDt x => TableRow.ldVxDt x
  | .ldVxK x => TableRow.ldVxK x
  | .ldDtVx x => TableRow.ldDtVx x
  | .ldStVx x => TableRow.ldStVx x
  | .addI x => TableRow.addI x
  | .ldF x => TableRow.ldF x
  | .ldB x => TableRow.ldB x
  | .ldMemVx x => TableRow.ldMemVx x
  | .ldVxMem x => TableRow.ldVxMem x

/-- Settles O4: a word that satisfies the row is the word of an instruction of the row, and so decodes to it; a
word that decodes is the word of what it decodes to, and so satisfies that row. -/
theorem tableRowSelectsTheInstruction : Obligations.TableRowSelectsTheInstruction := by
  intro w i
  constructor
  · intro h
    obtain ⟨j, rfl, hrow⟩ := exists_encode_of_row w i h
    exact ⟨j, decodeWord_encode j, hrow⟩
  · rintro ⟨j, hj, hrow⟩
    rw [← hrow, ← encode_of_decodeWord hj]
    exact encode_and_mask j

/-! The words with no handler (30_encoding.md R58). -/

theorem decodeFamily0_eq_none (w : Word) :
    decodeFamily0 w = none ↔ Word.kk w ≠ 0xE0 ∧ Word.kk w ≠ 0xEE := by
  simp [decodeFamily0, ite_eq_iff]

theorem decodeFamily8_eq_none (w : Word) :
    decodeFamily8 w = none ↔ Word.n w = 0x8 ∨ Word.n w = 0x9 ∨ Word.n w = 0xA ∨ Word.n w = 0xB ∨
      Word.n w = 0xC ∨ Word.n w = 0xD ∨ Word.n w = 0xF := by
  rcases nibble_cases (Word.n w) with h | h | h | h | h | h | h | h | h | h | h | h | h | h | h | h <;>
    simp [decodeFamily8, h]

theorem decodeFamilyE_eq_none (w : Word) :
    decodeFamilyE w = none ↔ Word.kk w ≠ 0x9E ∧ Word.kk w ≠ 0xA1 := by
  simp [decodeFamilyE, ite_eq_iff]

theorem decodeFamilyF_eq_none (w : Word) :
    decodeFamilyF w = none ↔ Word.kk w ≠ 0x07 ∧ Word.kk w ≠ 0x0A ∧ Word.kk w ≠ 0x15 ∧ Word.kk w ≠ 0x18 ∧
      Word.kk w ≠ 0x1E ∧ Word.kk w ≠ 0x29 ∧ Word.kk w ≠ 0x33 ∧ Word.kk w ≠ 0x55 ∧ Word.kk w ≠ 0x65 := by
  simp [decodeFamilyF, ite_eq_iff]

/-- Settles O5: for each of the sixteen values of `op`, the family's own list of keys, or a handler whatever the
other bits. -/
theorem unsupportedWordsAreExactlyThese : Obligations.UnsupportedWordsAreExactlyThese := by
  intro w
  rw [← decodeFamily0_eq_none, ← decodeFamily8_eq_none, ← decodeFamilyE_eq_none, ← decodeFamilyF_eq_none]
  rcases nibble_cases (Word.op w) with h | h | h | h | h | h | h | h | h | h | h | h | h | h | h | h <;>
    simp [decodeWord, h]

/-! Bytes. -/

theorem decode_bytes_of_some {w : Word} {i : Instr} (h : decodeWord w = some i) (rest : List Byte) :
    decode (Word.hiByte w :: Word.loByte w :: rest) = .ok i rest := by
  simp [decode, h]

/-- Settles O6: the two bytes make the word again, which decodes to its instruction. -/
theorem bytesDecodeHighByteFirst : Obligations.BytesDecodeHighByteFirst :=
  ⟨fun i rest => decode_bytes_of_some (decodeWord_encode i) rest, rfl, fun _ => rfl⟩

/-- Settles O1: seventeen literal words, each decoded by evaluation. -/
theorem sampleWordsDecode : Obligations.SampleWordsDecode := by
  unfold Obligations.SampleWordsDecode
  decide

/-- Settles O7: no handler reads the operand in question, so each pair of meanings is the same term. -/
theorem ignoredFieldsHaveNoEffect : Obligations.IgnoredFieldsHaveNoEffect :=
  fun _ _ _ _ _ => ⟨rfl, rfl, rfl, rfl, rfl, rfl⟩

end Sys2Proof.Machine
end

section
/-! PROOFS. Every instruction answers a state, and which pieces of the state it writes (10_state.md section 15,
60_exceptions.md R152). -/

namespace Sys2Proof.Machine

/-- Every handler answers a next state: `CALL`, `RET` and `LD Vx,K` on each of their branches, every other one
on its only branch. -/
theorem exec_total (i : Instr) (s : State) : ∃ t, exec i s = .next t := by
  cases i with
  | call nnn =>
    obtain ⟨-, hexec⟩ | ⟨_, hexec⟩ := execCall_cases nnn s
    · exact ⟨_, hexec⟩
    · exact ⟨_, hexec⟩
  | ret ign =>
    obtain ⟨-, hexec⟩ | ⟨_, hexec⟩ := execRet_cases ign s
    · exact ⟨_, hexec⟩
    · exact ⟨_, hexec⟩
  | ldVxK x =>
    cases hlow : s.lowestKey with
    | none => exact ⟨_, exec_ldVxK_of_none hlow⟩
    | some k => exact ⟨_, exec_ldVxK_of_some hlow⟩
  | _ => exact ⟨_, rfl⟩

/-! The pieces an instruction may write. -/

/-- The pieces of the state that the handler of an instruction may change. -/
def writtenPieces : Instr → List Piece
  | .cls _ => [.fb]
  | .ret _ => [.sp, .pc, .fault]
  | .call _ => [.stack, .sp, .pc, .fault]
  | .jp _ | .jpV0 _ => [.pc]
  | .seImm _ _ | .sneImm _ _ | .seReg _ _ _ | .sneReg _ _ _ | .skp _ | .sknp _ => [.pc]
  | .ldImm _ _ | .addImm _ _ | .ldReg _ _ | .orReg _ _ | .andReg _ _ | .xorReg _ _ => [.v]
  | .addReg _ _ | .sub _ _ | .shr _ _ | .subn _ _ | .shl _ _ => [.v]
  | .ldI _ | .addI _ | .ldF _ => [.i]
  | .rnd _ _ => [.rng, .v]
  | .drw _ _ _ => [.fb, .v]
  | .ldVxDt _ | .ldVxMem _ => [.v]
  | .ldVxK _ => [.v, .wait, .pc]
  | .ldDtVx _ => [.dt]
  | .ldStVx _ => [.st]
  | .ldB _ | .ldMemVx _ => [.mem]

theorem KeepsAllBut.mono {ps qs : List Piece} {s t : State} (h : KeepsAllBut ps s t) (hsub : ps ⊆ qs) :
    KeepsAllBut qs s t :=
  fun p hp => h p fun hmem => hp (hsub hmem)

theorem State.draw_keeps (s : State) : KeepsAllBut [.rng] s s.draw := by
  intro p hp
  cases p with
  | rng => simp at hp
  | _ => simp [SamePiece, State.memRead, State.reg]

theorem exec_call_keeps {nnn : Imm12} {s t : State} (h : exec (.call nnn) s = .next t) :
    KeepsAllBut [.stack, .sp, .pc, .fault] s t := by
  rcases Nat.lt_or_ge s.sp.val 16 with hlt | hge
  · rw [exec_call_of_lt nnn s hlt] at h
    cases h
    exact ((State.push?_keeps (s.push?_of_lt s.pc hlt)).trans (State.setPc_keeps _ _)).mono (by simp)
  · rw [exec_call_of_full nnn s (by omega)] at h
    cases h
    exact (s.raise_keeps _).mono (by simp)

theorem exec_ret_keeps {ign : Nibble} {s t : State} (h : exec (.ret ign) s = .next t) :
    KeepsAllBut [.sp, .pc, .fault] s t := by
  rcases Nat.eq_zero_or_pos s.sp.val with hempty | hpos
  · rw [exec_ret_of_empty ign s hempty] at h
    cases h
    exact (s.raise_keeps _).mono (by simp)
  · rw [exec_ret_of_pos ign s hpos] at h
    cases h
    exact ((State.pop?_keeps (s.pop?_of_pos hpos)).trans (State.setPc_keeps _ _)).mono (by simp)

theorem exec_ldVxK_keeps {x : Nibble} {s t : State} (h : exec (.ldVxK x) s = .next t) :
    KeepsAllBut [.v, .wait, .pc] s t := by
  cases hlow : s.lowestKey with
  | none =>
    rw [exec_ldVxK_of_none hlow] at h
    cases h
    exact ((s.setWait_keeps _).trans (State.setPc_keeps _ _)).mono (by simp)
  | some k =>
    rw [exec_ldVxK_of_some hlow] at h
    cases h
    exact (s.setReg_keeps x k).mono (by simp)

/-- The frame of every instruction: the frames of the updates it is made of. -/
theorem exec_keeps {i : Instr} {s t : State} (h : exec i s = .next t) :
    KeepsAllBut (writtenPieces i) s t := by
  cases i with
  | call => exact exec_call_keeps h
  | ret => exact exec_ret_keeps h
  | ldVxK => exact exec_ldVxK_keeps h
  | cls => cases h; exact s.setFb_keeps _
  | jp | jpV0 => cases h; exact s.setPc_keeps _
  | seImm | sneImm | seReg | sneReg | skp | sknp => cases h; exact s.skipIf_keeps _
  | ldImm | addImm | ldReg | orReg | andReg | xorReg | ldVxDt => cases h; exact s.setReg_keeps _ _
  | addReg | sub | shr | subn | shl => cases h; exact s.setRegFlag_keeps _ _ _
  | ldI | addI | ldF => cases h; exact s.setI_keeps _
  | rnd => cases h; exact s.draw_keeps.trans (State.setReg_keeps _ _ _)
  | drw => cases h; exact (s.setFb_keeps _).trans (State.setReg_keeps _ _ _)
  | ldDtVx => cases h; exact s.setDt_keeps _
  | ldStVx => cases h; exact s.setSt_keeps _
  | ldB | ldMemVx => cases h; exact s.store_keeps _ _
  | ldVxMem => cases h; exact s.setRegs_keeps _

/-! Which instructions write a given piece. -/

section
variable (i : Instr)

theorem mem_mem_writtenPieces : Piece.mem ∈ writtenPieces i ↔ StoresMem i := by
  cases i <;> simp [writtenPieces, StoresMem]

theorem fb_mem_writtenPieces : Piece.fb ∈ writtenPieces i ↔ WritesFb i := by
  cases i <;> simp [writtenPieces, WritesFb]

theorem i_mem_writtenPieces : Piece.i ∈ writtenPieces i ↔ WritesI i := by
  cases i <;> simp [writtenPieces, WritesI]

theorem pc_mem_writtenPieces : Piece.pc ∈ writtenPieces i ↔ WritesPc i := by
  cases i <;> simp [writtenPieces, WritesPc]

theorem sp_mem_writtenPieces : Piece.sp ∈ writtenPieces i ↔ UsesStack i := by
  cases i <;> simp [writtenPieces, UsesStack]

theorem fault_mem_writtenPieces : Piece.fault ∈ writtenPieces i ↔ UsesStack i := by
  cases i <;> simp [writtenPieces, UsesStack]

theorem stack_mem_writtenPieces : Piece.stack ∈ writtenPieces i ↔ ∃ nnn, i = .call nnn := by
  cases i <;> simp [writtenPieces]

theorem rng_mem_writtenPieces : Piece.rng ∈ writtenPieces i ↔ ∃ x kk, i = .rnd x kk := by
  cases i <;> simp [writtenPieces]

theorem wait_mem_writtenPieces : Piece.wait ∈ writtenPieces i ↔ ∃ x, i = .ldVxK x := by
  cases i <;> simp [writtenPieces]

theorem dt_mem_writtenPieces : Piece.dt ∈ writtenPieces i ↔ ∃ x, i = .ldDtVx x := by
  cases i <;> simp [writtenPieces]

theorem st_mem_writtenPieces : Piece.st ∈ writtenPieces i ↔ ∃ x, i = .ldStVx x := by
  cases i <;> simp [writtenPieces]

theorem keys_not_mem_writtenPieces : Piece.keys ∉ writtenPieces i := by
  cases i <;> simp [writtenPieces]

theorem policy_not_mem_writtenPieces : Piece.policy ∉ writtenPieces i := by
  cases i <;> simp [writtenPieces]

end

/-! The statements about who may write what. -/

/-- Settles O24: the screen is among the pieces that `CLS` and `DRW` alone write. -/
theorem onlyClsAndDrwDraw : Obligations.OnlyClsAndDrwDraw :=
  fun i _ _ h hi => exec_keeps h .fb (mt (fb_mem_writtenPieces i).mp hi)

/-- Settles O26: `I` is among the pieces that the three instructions alone write. -/
theorem onlyThreeInstructionsWriteI : Obligations.OnlyThreeInstructionsWriteI :=
  fun i _ _ h hi => exec_keeps h .i (mt (i_mem_writtenPieces i).mp hi)

/-- Settles O30: `PC` is among the pieces that the control transfers alone write. -/
theorem onlyControlTransferWritesPc : Obligations.OnlyControlTransferWritesPc :=
  fun i _ _ h hi => exec_keeps h .pc (mt (pc_mem_writtenPieces i).mp hi)

/-- Settles O27: `RND` is `draw` and then a register write; no other instruction writes the source. -/
theorem onlyRndDrawsAByte : Obligations.OnlyRndDrawsAByte := by
  refine fun i s t h => ⟨?_, fun hi => exec_keeps h .rng (mt (rng_mem_writtenPieces i).mp hi)⟩
  rintro ⟨x, kk, rfl⟩
  cases h
  rfl

/-- Settles O28: the stack is written by `CALL`, `SP` and the latch by `CALL` and `RET`, the marker by
`LD Vx,K`. -/
theorem onlyCallAndRetUseTheStack : Obligations.OnlyCallAndRetUseTheStack := by
  refine fun i s t h => ⟨fun hi => ⟨?stack, ?sp, ?fault⟩, fun hi => ?wait⟩
  case stack =>
    refine exec_keeps h .stack fun hmem => ?_
    obtain ⟨nnn, rfl⟩ := (stack_mem_writtenPieces i).mp hmem
    exact hi trivial
  case sp => exact exec_keeps h .sp (mt (sp_mem_writtenPieces i).mp hi)
  case fault => exact exec_keeps h .fault (mt (fault_mem_writtenPieces i).mp hi)
  case wait =>
    refine exec_keeps h .wait fun hmem => ?_
    obtain ⟨x, hx⟩ := (wait_mem_writtenPieces i).mp hmem
    exact hi x hx

/-! Which registers an instruction writes (42_alu.md section 1). -/

theorem exec_ldVxK_keepsRegs {x : Nibble} {s t : State} (h : exec (.ldVxK x) s = .next t) :
    KeepsRegsBut (· = x) s t := by
  cases hlow : s.lowestKey with
  | none =>
    rw [exec_ldVxK_of_none hlow] at h
    cases h
    exact fun _ _ => rfl
  | some k =>
    rw [exec_ldVxK_of_some hlow] at h
    cases h
    exact s.setReg_keepsRegs x k

theorem exec_ldVxMem_keepsRegs {x : Nibble} {s t : State} (h : exec (.ldVxMem x) s = .next t) :
    KeepsRegsBut (· ≤ x) s t := by
  obtain ⟨-, u, hu, -, hregs, -⟩ := ldVxMemLoadsRegisters x s
  rw [hu] at h
  cases h
  exact hregs

/-- An instruction that writes registers writes the ones it names and, with a flag, VF. -/
theorem exec_keepsRegs {i : Instr} {s t : State} (h : exec i s = .next t) {r : Nibble}
    (hdest : ¬ NamesDest r i) (hflag : ¬ (WritesFlag i ∧ r = 15)) : t.reg r = s.reg r := by
  cases i with
  | ldVxK => exact exec_ldVxK_keepsRegs h r hdest
  | ldVxMem => exact exec_ldVxMem_keepsRegs h r hdest
  | ldImm | addImm | ldReg | orReg | andReg | xorReg | ldVxDt => cases h; exact s.setReg_keepsRegs _ _ r hdest
  | rnd => cases h; exact State.setReg_keepsRegs _ _ _ r hdest
  | addReg | sub | shr | subn | shl =>
    cases h
    exact s.setRegFlag_keepsRegs _ _ _ r (not_or.mpr ⟨hdest, fun hr => hflag ⟨trivial, hr⟩⟩)
  | drw => cases h; exact State.setReg_keepsRegs _ _ _ r fun hr => hflag ⟨trivial, hr⟩
  | _ => exact exec_keeps h .v (by simp [writtenPieces]) r

theorem flagByte_eq_zero_or_one (c : Bool) : flagByte c = 0 ∨ flagByte c = 1 := by
  cases c
  · exact .inl rfl
  · exact .inr rfl

/-- Each of the six writes the flag last. -/
theorem exec_writesFlag {i : Instr} {s t : State} (h : exec i s = .next t) (hi : WritesFlag i) :
    ∃ c, t.reg 15 = flagByte c := by
  cases i with
  | addReg | sub | shr | subn | shl | drw => cases h; exact ⟨_, State.reg_setReg_same _ vf _⟩
  | _ => exact hi.elim

/-- Settles O29: the registers named are the only ones written, and a flag is 0 or 1. -/
theorem registersChangeOnlyWhereNamed : Obligations.RegistersChangeOnlyWhereNamed := by
  refine fun i s t h => ⟨fun r => exec_keepsRegs h, fun hi => ?_⟩
  obtain ⟨c, hc⟩ := exec_writesFlag h hi
  rw [hc]
  exact flagByte_eq_zero_or_one c

end Sys2Proof.Machine
end

section
/-! PROOFS. The step: all it can do, and what follows for every step (40_step_cycle.md R65 to R72,
60_exceptions.md R151 and R158). -/

namespace Sys2Proof.Machine

/-- All a step can do: nothing in a faulted core, the key wait in a waiting one, and in a running one the handler
of the fetched word or what follows a word with no handler. -/
inductive StepCase (s : State) : State → Prop where
  | faulted (f : CoreFault) (hf : s.fault = some f) : StepCase s s
  | waiting (r : Nibble) (hf : s.fault = none) (hw : s.wait = .awaitingKey r) : StepCase s (waitingStep r s)
  | executed (i : Instr) (t : State) (hf : s.fault = none) (hw : s.wait = .running)
      (hd : decodeWord s.fetchWord = some i) (hexec : exec i s.advance = .next t) : StepCase s t
  | unsupported (hf : s.fault = none) (hw : s.wait = .running) (hd : decodeWord s.fetchWord = none) :
      StepCase s (s.advance.unsupported s.fetchWord s.pc)

section
variable {s : State} (hf : s.fault = none) (hw : s.wait = .running)
include hf hw

theorem step_of_decode_some {i : Instr} (hd : decodeWord s.fetchWord = some i) :
    step s = exec i s.advance := by
  rw [step_of_running s hf hw, fetchAndExecute_of_some s i hd]

theorem step_of_decode_none (hd : decodeWord s.fetchWord = none) :
    step s = .next (s.advance.unsupported s.fetchWord s.pc) := by
  rw [step_of_running s hf hw, fetchAndExecute_of_none s hd]

end

theorem exists_step_eq (s : State) : ∃ t, step s = .next t ∧ StepCase s t := by
  cases hf : s.fault with
  | some f => exact ⟨_, step_of_fault s f hf, .faulted f hf⟩
  | none =>
    cases hw : s.wait with
    | awaitingKey r => exact ⟨_, step_of_waiting s r hf hw, .waiting r hf hw⟩
    | running =>
      cases hd : decodeWord s.fetchWord with
      | none => exact ⟨_, step_of_decode_none hf hw hd, .unsupported hf hw hd⟩
      | some i =>
        obtain ⟨t, ht⟩ := exec_total i s.advance
        exact ⟨t, (step_of_decode_some hf hw hd).trans ht, .executed i t hf hw hd ht⟩

theorem stepCase_of_step {s t : State} (h : step s = .next t) : StepCase s t := by
  obtain ⟨u, hu, hcase⟩ := exists_step_eq s
  rw [hu] at h
  cases h
  exact hcase

/-- Settles O13: a step answers a state in each of its cases, an instruction on each of its branches. -/
theorem everyStepAnswersAState : Obligations.EveryStepAnswersAState := by
  refine ⟨fun s => ?_, exec_total⟩
  obtain ⟨t, ht, -⟩ := exists_step_eq s
  exact ⟨t, ht⟩

/-- Settles O8: the fetched word is the two bytes named, and the advance is the update named. -/
theorem stepRunsTheDecodedInstruction : Obligations.StepRunsTheDecodedInstruction :=
  fun _ _ hf hw hd => step_of_decode_some hf hw hd

/-- Settles O9: a faulted step is no step; a tick acts on the timers alone. -/
theorem faultedCoreIgnoresStep : Obligations.FaultedCoreIgnoresStep :=
  fun s f hf => ⟨step_of_fault s f hf, hf, toNat_countDown s.dt, toNat_countDown s.st⟩

/-! What the phases around a handler leave unchanged. -/

theorem SamePiece.refl (s : State) (p : Piece) : SamePiece s s p := by
  cases p <;> simp [SamePiece]

theorem KeepsAllBut.refl (ps : List Piece) (s : State) : KeepsAllBut ps s s :=
  fun p _ => SamePiece.refl s p

theorem State.advance_keeps (s : State) : KeepsAllBut [.pc, .report] s s.advance := by
  intro p hp
  cases p with
  | pc | report => simp at hp
  | _ => simp [SamePiece, State.memRead, State.reg]

theorem State.unsupported_keeps_of_skip {s : State} (w fa : Word) (hpol : s.policy = .skip) :
    KeepsAllBut [.report] s (s.unsupported w fa) := by
  rw [s.unsupported_skip w fa hpol]
  intro p hp
  cases p with
  | report => simp at hp
  | _ => simp [SamePiece, State.memRead, State.reg]

theorem State.unsupported_keeps (s : State) (w fa : Word) :
    KeepsAllBut [.fault, .report] s (s.unsupported w fa) := by
  cases hpol : s.policy with
  | halt =>
    rw [s.unsupported_halt w fa hpol]
    exact (s.raise_keeps _).mono (by simp)
  | skip => exact (State.unsupported_keeps_of_skip w fa hpol).mono (by simp)

theorem waitingStep_keeps (r : Nibble) (s : State) : KeepsAllBut [.v, .wait, .pc] s (waitingStep r s) := by
  cases hlow : s.lowestKey with
  | none =>
    rw [waitingStep_of_none hlow]
    exact KeepsAllBut.refl _ s
  | some k =>
    rw [waitingStep_of_some hlow]
    exact ((s.setReg_keeps r k).trans (State.setWait_keeps _ _)).trans (State.setPc_keeps _ _)

/-- A piece that the cycle itself does not write is changed only by an instruction that writes it. -/
theorem step_samePiece {s t : State} (h : step s = .next t) {p : Piece}
    (hp : p ∉ [Piece.v, .wait, .pc, .fault, .report]) :
    SamePiece s t p ∨ ∃ i, decodeWord s.fetchWord = some i ∧ p ∈ writtenPieces i := by
  simp only [List.mem_cons, List.not_mem_nil, or_false, not_or] at hp
  obtain ⟨hv, hwait, hpc, hfault, hreport⟩ := hp
  have hadvance : SamePiece s s.advance p := s.advance_keeps p (by simp [hpc, hreport])
  cases stepCase_of_step h with
  | faulted => exact .inl (SamePiece.refl s p)
  | waiting r => exact .inl (waitingStep_keeps r s p (by simp [hv, hwait, hpc]))
  | unsupported =>
    exact .inl (hadvance.trans (State.unsupported_keeps _ _ _ p (by simp [hfault, hreport])))
  | executed i t hf hw hd hexec =>
    by_cases hmem : p ∈ writtenPieces i
    · exact .inr ⟨i, hd, hmem⟩
    · exact .inl (hadvance.trans (exec_keeps hexec p hmem))

/-- Settles O21: no instruction writes the keys or the policy, and one instruction writes each timer. -/
theorem stepNeverTouchesTheHostsInputs : Obligations.StepNeverTouchesTheHostsInputs := by
  refine fun s t h => ⟨?keys, ?policy, fun hne => ?dt, fun hne => ?st⟩
  case keys =>
    obtain hsame | ⟨i, -, hi⟩ := step_samePiece h (p := .keys) (by decide)
    · exact hsame
    · exact absurd hi (keys_not_mem_writtenPieces i)
  case policy =>
    obtain hsame | ⟨i, -, hi⟩ := step_samePiece h (p := .policy) (by decide)
    · exact hsame
    · exact absurd hi (policy_not_mem_writtenPieces i)
  case dt =>
    obtain hsame | ⟨i, hd, hi⟩ := step_samePiece h (p := .dt) (by decide)
    · exact absurd hsame hne
    · obtain ⟨x, rfl⟩ := (dt_mem_writtenPieces i).mp hi
      exact ⟨x, hd⟩
  case st =>
    obtain hsame | ⟨i, hd, hi⟩ := step_samePiece h (p := .st) (by decide)
    · exact absurd hsame hne
    · obtain ⟨x, rfl⟩ := (st_mem_writtenPieces i).mp hi
      exact ⟨x, hd⟩

/-- Settles O25: memory is among the pieces that the two stores alone write, in a handler and in a step. -/
theorem onlyStoresWriteMemory : Obligations.OnlyStoresWriteMemory := by
  refine ⟨fun i s t h hi => exec_keeps h .mem (mt (mem_mem_writtenPieces i).mp hi), fun s t a h hne => ?_⟩
  obtain hsame | ⟨i, hd, hi⟩ := step_samePiece h (p := .mem) (by decide)
  · exact absurd (hsame a) hne
  · exact ⟨i, hd, (mem_mem_writtenPieces i).mp hi⟩

/-! A word with no handler, under each policy. -/

/-- Settles O11: the step is the advance and then `raise`, and a faulted core stands still. -/
theorem unsupportedWordHaltsTheCore : Obligations.UnsupportedWordHaltsTheCore := by
  intro s hf hw hpol hd
  have hstep := step_of_decode_none hf hw hd
  rw [s.advance.unsupported_halt _ _ hpol] at hstep
  exact ⟨_, hstep, rfl, rfl, rfl, (s.advance_keeps.trans (State.raise_keeps _ _)).mono (by simp),
    step_of_fault _ _ rfl⟩

/-- Settles O12: the step is the advance and then the report. -/
theorem unsupportedWordIsSkippedUnderSkip : Obligations.UnsupportedWordIsSkippedUnderSkip := by
  intro s hf hw hpol hd
  have hstep := step_of_decode_none hf hw hd
  have hkeeps := s.advance_keeps.trans (State.unsupported_keeps_of_skip s.fetchWord s.pc hpol)
  rw [s.advance.unsupported_skip _ _ hpol] at hstep hkeeps
  exact ⟨_, hstep, rfl, rfl, hf, hkeeps.mono (by simp)⟩

/-! The public status (10_state.md R28). -/

theorem State.status_of_fault {s : State} {f : CoreFault} (hf : s.fault = some f) :
    s.status = .faulted f := by
  simp only [State.status, hf]

theorem State.status_of_running {s : State} (hf : s.fault = none) (hw : s.wait = .running) :
    s.status = .running := by
  simp only [State.status, hf, hw]

theorem State.status_of_waiting {s : State} {r : Nibble} (hf : s.fault = none)
    (hw : s.wait = .awaitingKey r) : s.status = .awaitingKey r := by
  simp only [State.status, hf, hw]

/-- Settles O20: a latched fault decides the status; without one the marker does. -/
theorem statusAndSoundFollowTheState : Obligations.StatusAndSoundFollowTheState := by
  intro s
  rw [← and_assoc, ← and_assoc]
  refine ⟨?_, s.soundOn_iff⟩
  cases hf : s.fault with
  | some f => simp [State.status_of_fault hf, eq_comm]
  | none =>
    cases hw : s.wait with
    | running => simp [State.status_of_running hf hw]
    | awaitingKey r => simp [State.status_of_waiting hf hw, eq_comm]

end Sys2Proof.Machine
end

section
/-! PROOFS. Reset, the image load, and the machine's invariant (10_state.md section 14, 20_memory.md R44,
60_exceptions.md R158, 45_keys_timers.md R144). -/

namespace Sys2Proof.Machine

/-! Memory as reset leaves it. -/

theorem State.memRead_of_mem_nil {s : State} (h : s.mem = []) (a : Nat) :
    s.memRead a = Memory.unlisted (maskAddr a) := by
  rw [s.memRead_eq_cell, h, Memory.cell_nil]

theorem Memory.unlisted_font (k : Nat) : Memory.unlisted (0x050 + k) = font.getD k 0 := by
  have hbase : fontBase ≤ 0x050 + k := Nat.le_add_right 0x050 k
  have hoffset : 0x050 + k - fontBase = k := Nat.add_sub_cancel_left 0x050 k
  rw [Memory.unlisted, if_pos hbase, hoffset]

theorem Memory.unlisted_outside {a : Nat} (h : a < 0x050 ∨ 0x0A0 ≤ a) : Memory.unlisted a = 0 := by
  obtain hlt | hge := h
  · exact if_neg (Nat.not_le.mpr hlt)
  · obtain ⟨k, rfl⟩ := Nat.exists_eq_add_of_le (Nat.le_trans (by decide : 0x050 ≤ 0x0A0) hge)
    have hlen : font.length ≤ k := by
      have : font.length = 80 := by decide
      omega
    rw [Memory.unlisted_font, List.getD_eq_getElem?_getD, List.getElem?_eq_none hlen, Option.getD_none]

/-- Settles O17: both states hold the same values, up to the policy and the seed, of which nothing is said. -/
theorem resetLeavesTheSpecsValues : Obligations.ResetLeavesTheSpecsValues := by
  intro s t ht
  have hmem : t.mem = [] := by obtain rfl | rfl := ht <;> rfl
  have hfont (k : Nat) (hk : k < 80) : t.memRead (0x050 + k) = font.getD k 0 := by
    rw [State.memRead_of_mem_nil hmem, maskAddr_of_lt (by omega), Memory.unlisted_font]
  have hzero (a : Nat) (ha : a < 0x1000) (hout : a < 0x050 ∨ 0x0A0 ≤ a) : t.memRead a = 0 := by
    rw [State.memRead_of_mem_nil hmem, maskAddr_of_lt ha, Memory.unlisted_outside hout]
  obtain rfl | rfl := ht
  all_goals
    exact ⟨fun r => Vector.getElem_replicate r.isLt, rfl, rfl, rfl, rfl, rfl,
      fun k hk => Vector.getElem_replicate hk, Framebuffer.pixel_clear,
      fun k hk => Vector.getElem_replicate hk, rfl, rfl, rfl, hfont, hzero⟩

/-! The image load, on each side of its limit. -/

theorem State.loadImage_of_gt (s : State) {bytes : List Byte} (h : 3584 < bytes.length) :
    s.loadImage bytes = .error .imageTooLarge := if_pos h

theorem State.loadImage_of_le (s : State) {bytes : List Byte} (h : bytes.length ≤ 3584) :
    s.loadImage bytes = .ok (s.store 0x200 bytes) := if_neg (Nat.not_lt.mpr h)

/-- Settles O18: an image that fits is one store, of fewer bytes than memory has. -/
theorem imageLoadsAtProgBase : Obligations.ImageLoadsAtProgBase := by
  refine fun s bytes hm => ⟨s.loadImage_of_gt, fun hle => ⟨_, s.loadImage_of_le hle, fun k hk => ?_,
    s.store_keepsMem _ _, s.store_keeps _ _⟩⟩
  exact State.memRead_store_same 0x200 k bytes hm (by omega) hk

/-! Coherence. -/

theorem faultCoherent_of_none {s : State} (hf : s.fault = none) : FaultCoherent s := by
  simp only [FaultCoherent, hf]

/-- A core that does not wait has nothing to show of the wait. -/
theorem coherent_of_running {s : State} (hm : Memory.wf s.mem = true) (hw : s.wait = .running)
    (hfault : FaultCoherent s) : Coherent s where
  memWf := hm
  wait r hr := by rw [hw] at hr; cases hr
  fault := hfault

/-- A handler keeps memory canonical: a store does, and no other handler touches the list. -/
theorem exec_wf {i : Instr} {s t : State} (h : exec i s = .next t) (hm : Memory.wf s.mem = true) :
    Memory.wf t.mem = true := by
  cases i with
  | ldB | ldMemVx => cases h; exact State.store_wf _ _ hm
  | call nnn => obtain ⟨-, hexec⟩ | ⟨_, hexec⟩ := execCall_cases nnn s <;> cases hexec.symm.trans h <;> exact hm
  | ret ign => obtain ⟨-, hexec⟩ | ⟨_, hexec⟩ := execRet_cases ign s <;> cases hexec.symm.trans h <;> exact hm
  | ldVxK x =>
    cases hlow : s.lowestKey with
    | none => cases (exec_ldVxK_of_none hlow).symm.trans h; exact hm
    | some k => cases (exec_ldVxK_of_some hlow).symm.trans h; exact hm
  | seImm | sneImm | seReg | sneReg | skp | sknp => cases h; rw [State.skipIf_eq]; exact hm
  | _ => cases h; exact hm

/-- The handler of the instruction 2 before `PC`, in a running core: a stack fault is raised at its limit of `SP`,
and the wait is entered with `PC` back at the `LD Vx,K`. -/
theorem exec_coherent {i : Instr} {s t : State} (hm : Memory.wf s.mem = true) (hf : s.fault = none)
    (hw : s.wait = .running) (hd : decodeWord (s.memReadWord (s.pc - 2).toNat) = some i)
    (h : exec i s = .next t) : Coherent t := by
  cases i with
  | call nnn =>
    obtain ⟨hfull, hexec⟩ | ⟨_, hexec⟩ := execCall_cases nnn s <;> cases hexec.symm.trans h
    · exact coherent_of_running hm hw ⟨hw, hfull⟩
    · exact coherent_of_running hm hw (faultCoherent_of_none hf)
  | ret ign =>
    obtain ⟨hempty, hexec⟩ | ⟨_, hexec⟩ := execRet_cases ign s <;> cases hexec.symm.trans h
    · exact coherent_of_running hm hw ⟨hw, hempty⟩
    · exact coherent_of_running hm hw (faultCoherent_of_none hf)
  | ldVxK x =>
    cases hlow : s.lowestKey with
    | none =>
      cases (exec_ldVxK_of_none hlow).symm.trans h
      exact ⟨hm, fun r hr => by cases hr; exact hd, faultCoherent_of_none hf⟩
    | some k =>
      cases (exec_ldVxK_of_some hlow).symm.trans h
      exact coherent_of_running hm hw (faultCoherent_of_none hf)
  | _ =>
    have hwait : t.wait = s.wait := exec_keeps h .wait (by simp [writtenPieces])
    have hfault : t.fault = s.fault := exec_keeps h .fault (by simp [writtenPieces])
    exact coherent_of_running (exec_wf h hm) (hwait.trans hw) (faultCoherent_of_none (hfault.trans hf))

theorem waitingStep_coherent {r : Nibble} {s : State} (hs : Coherent s) (hf : s.fault = none) :
    Coherent (waitingStep r s) := by
  cases hlow : s.lowestKey with
  | none => rwa [waitingStep_of_none hlow]
  | some k =>
    rw [waitingStep_of_some hlow]
    exact coherent_of_running hs.memWf rfl (faultCoherent_of_none hf)

/-- An unsupported word: under `halt` the latch records the word that memory holds at the address it records. -/
theorem unsupported_coherent {s : State} (hs : Coherent s) (hf : s.fault = none) (hw : s.wait = .running)
    (hd : decodeWord s.fetchWord = none) : Coherent (s.advance.unsupported s.fetchWord s.pc) := by
  cases hpol : s.policy with
  | halt =>
    rw [s.advance.unsupported_halt _ _ hpol]
    exact coherent_of_running hs.memWf hw ⟨hw, rfl, rfl, hd⟩
  | skip =>
    rw [s.advance.unsupported_skip _ _ hpol]
    exact coherent_of_running hs.memWf hw (faultCoherent_of_none hf)

theorem step_coherent {s t : State} (hs : Coherent s) (h : step s = .next t) : Coherent t := by
  cases stepCase_of_step h with
  | faulted => exact hs
  | waiting r hf => exact waitingStep_coherent hs hf
  | unsupported hf hw hd => exact unsupported_coherent hs hf hw hd
  | executed i t hf hw hd hexec =>
    have hback : s.advance.pc - 2 = s.pc := BitVec.add_sub_cancel s.pc 2
    exact exec_coherent (s := s.advance) hs.memWf hf hw (by rw [hback]; exact hd) hexec

/-- Settles O14: each of the four things a step can do keeps the invariant. -/
theorem stepKeepsCoherent : Obligations.StepKeepsCoherent :=
  fun _ _ => step_coherent

/-- Settles O15: reset memory lists nothing, and the core runs. -/
theorem resetStateIsCoherent : Obligations.ResetStateIsCoherent :=
  coherent_of_running State.reset_mem_wf rfl (faultCoherent_of_none rfl)

/-! Runs: boot, then moves in any order. -/

theorem boot_coherent {policy : Config.UnsupportedPolicy} {seed : Nat} {bytes image : List Byte}
    {keys : Vector Bool 16} {s : State} (h : boot policy seed bytes image keys = .ok s) : Coherent s := by
  unfold boot at h
  rcases Nat.lt_or_ge 3584 image.length with hgt | hle
  · rw [State.loadImage_of_gt _ hgt] at h
    cases h
  · rw [State.loadImage_of_le _ hle] at h
    cases h
    exact coherent_of_running (State.store_wf _ _ State.reset_mem_wf) rfl (faultCoherent_of_none rfl)

/-- A tick and a key write touch nothing the invariant speaks of. -/
theorem move_coherent {m : Move} {s t : State} (hs : Coherent s) (h : move m s = .next t) : Coherent t := by
  cases m with
  | step => exact step_coherent hs h
  | tickTimers | setKeys => cases h; exact ⟨hs.memWf, hs.wait, hs.fault⟩

theorem runMoves_coherent {moves : List Move} {s t : State} (hs : Coherent s)
    (h : runMoves moves s = .next t) : Coherent t := by
  induction moves generalizing s with
  | nil => cases h; exact hs
  | cons m rest ih =>
    rw [runMoves] at h
    split at h
    next u hmove => exact ih (move_coherent hs hmove) h
    all_goals cases h

/-- Settles O16: boot gives a coherent state and every move keeps it so. -/
theorem reachableStatesAreCoherent : Obligations.ReachableStatesAreCoherent := by
  rintro s ⟨policy, seed, bytes, image, keys, moves, s₀, hboot, hrun⟩
  exact runMoves_coherent (boot_coherent hboot) hrun

/-- Settles O23: the model's remainder is the spec's mask, and a write lands in one cell of it. -/
theorem writeChangesExactlyOneCell : Obligations.WriteChangesExactlyOneCell := by
  refine fun m a b hm => ⟨Memory.write_wf a b hm, fun c => ?_⟩
  rw [← maskAddr_eq_and, ← maskAddr_eq_and]
  exact ⟨Memory.read_write_same b hm, Memory.read_write_other m b⟩

end Sys2Proof.Machine
end

section
/-! PROOFS. The instructions whose rules rest on the spec's decisions: reversed subtraction, shifts, random bytes,
computed jumps and addresses, dump and load, key skips and the key wait (42_alu.md R100 to R108, 41_flow.md R87,
43_index_memory.md R112 to R116, 45_keys_timers.md R136 to R141). -/

namespace Sys2Proof.Machine

/-! Subtraction the other way and the shifts. -/

/-- Settles O42: the subtraction is `setRegFlag` of the difference and the absence of a borrow, with the operands
exchanged. -/
theorem subnReversesSub : Obligations.SubnReversesSub := by
  intro x y s
  refine ⟨decodeWord_subn x y, _, rfl, ?flag, fun hx => ?difference,
    s.setRegFlag_keepsRegs x _ _, s.setRegFlag_keeps x _ _⟩
  case flag => exact (s.setRegFlag_vf x _ _).trans (flagByte_noBorrowOf _ _)
  case difference => rw [s.setRegFlag_dest _ _ hx, toNat_byte_sub]

theorem flagByte_shiftedOutRight (a : Byte) :
    flagByte (shiftedOutRight a) = if a.toNat % 2 = 1 then 1 else 0 := by
  simp only [flagByte, shiftedOutRight, BitVec.getLsbD, Nat.testBit_zero, decide_eq_true_eq]

theorem flagByte_shiftedOutLeft (a : Byte) :
    flagByte (shiftedOutLeft a) = if a.toNat ≥ 128 then 1 else 0 := by
  have hbit : a.getLsbD 7 = decide (a.toNat ≥ 128) := BitVec.msb_eq_decide a
  simp only [flagByte, shiftedOutLeft, hbit, decide_eq_true_eq]

theorem toNat_byte_shr_one (a : Byte) : (a >>> 1).toNat = a.toNat / 2 := by
  rw [BitVec.toNat_ushiftRight, Nat.shiftRight_one]

theorem toNat_byte_shl_one (a : Byte) : (a <<< 1).toNat = 2 * a.toNat % 256 := by
  rw [BitVec.toNat_shiftLeft, Nat.shiftLeft_eq, pow_one, Nat.mul_comm]

/-- Settles O43: each shift is `setRegFlag` of the shifted byte and the bit it loses. -/
theorem shiftsMoveOneBitIntoVf : Obligations.ShiftsMoveOneBitIntoVf := by
  intro x y s
  refine ⟨decodeWord_shr x y, decodeWord_shl x y,
    ⟨_, rfl, ?flagRight, fun hx => ?half, s.setRegFlag_keepsRegs x _ _, s.setRegFlag_keeps x _ _⟩,
    ⟨_, rfl, ?flagLeft, fun hx => ?double, s.setRegFlag_keepsRegs x _ _, s.setRegFlag_keeps x _ _⟩⟩
  case flagRight => exact (s.setRegFlag_vf x _ _).trans (flagByte_shiftedOutRight _)
  case half => rw [s.setRegFlag_dest _ _ hx, toNat_byte_shr_one]
  case flagLeft => exact (s.setRegFlag_vf x _ _).trans (flagByte_shiftedOutLeft _)
  case double => rw [s.setRegFlag_dest _ _ hx, toNat_byte_shl_one]

/-! Random bytes. -/

/-- While the environment's bytes last, a draw yields them. -/
theorem Rng.next_of_injected {r : Rng} {b : Byte} (h : r.injected[r.drawn]? = some b) : r.next = b := by
  rw [Rng.next, List.getD_eq_getElem?_getD, h, Option.getD_some]

/-- Settles O44: one `draw` and one `setReg` of the masked byte. -/
theorem rndMasksOneDraw : Obligations.RndMasksOneDraw := by
  intro x kk s
  refine ⟨decodeWord_rnd x kk, _, rfl, fun k => ?bits, fun b hb => ?injected, rfl,
    fun r hr => State.reg_setReg_other s.draw _ hr,
    (s.draw_keeps.trans (State.setReg_keeps _ x _)).mono (by simp)⟩
  case bits => rw [State.reg_setReg_same, BitVec.getLsbD_and]
  case injected => rw [State.reg_setReg_same, Rng.next_of_injected hb]

/-! Computed jumps and addresses. -/

@[simp] theorem toNat_zextByte (b : Byte) : (zextByte b).toNat = b.toNat :=
  BitVec.toNat_setWidth_of_le (by decide)

/-- Settles O36: a 12-bit number and a byte add up to less than 65536. -/
theorem jpV0AddsV0 : Obligations.JpV0AddsV0 := by
  intro nnn s
  refine ⟨decodeWord_jpV0 nnn, _, rfl, ?sum, s.setPc_keeps _⟩
  have hnnn := nnn.isLt
  have hv0 := (s.reg 0).isLt
  rw [State.setPc_pc, BitVec.toNat_add, toNat_zextNnn, toNat_zextByte, Nat.mod_eq_of_lt (by omega)]

/-- The glyph of the largest byte still has an address of 16 bits. -/
theorem toNat_glyphAddr (b : Byte) : (glyphAddr b).toNat = 0x050 + 5 * b.toNat := by
  have hb := b.isLt
  have hbase : fontBase = 0x050 := rfl
  rw [glyphAddr, BitVec.toNat_ofNat, hbase, Nat.mod_eq_of_lt (by omega)]

/-- Settles O46: both are `setI`, of the wrapping sum and of the glyph's address. -/
theorem addIAndLdFFormAddresses : Obligations.AddIAndLdFFormAddresses := by
  intro x s
  refine ⟨decodeWord_addI x, decodeWord_ldF x, ⟨_, rfl, ?sum, s.setI_keeps _⟩,
    ⟨_, rfl, toNat_glyphAddr (s.reg x), s.setI_keeps _⟩⟩
  rw [State.setI_i, BitVec.toNat_add, toNat_zextByte]

/-! Dump and load. -/

/-- Settles O50: the load reads the cells that the dump wrote, since the registers set between move neither `I`
nor memory. -/
theorem loadAfterDumpRestores : Obligations.LoadAfterDumpRestores := by
  intro x s hm
  obtain ⟨-, hdump⟩ := ldMemVxDumpsRegisters x s
  obtain ⟨t, ht, hdumped, -, hkeeps⟩ := hdump hm
  have hi : t.i = s.i := hkeeps .i (by decide)
  refine ⟨t, ht, fun v => ?_⟩
  obtain ⟨-, u, hu, hloaded, habove, -⟩ := ldVxMemLoadsRegisters x (t.setRegs v)
  refine ⟨u, hu, fun k hk => ?_, habove⟩
  calc u.reg k = t.memRead (t.i.toNat + k.toNat) := hloaded k hk
    _ = s.reg k := by rw [hi, hdumped k hk]

theorem State.memReadWord_of_maskAddr_eq (s : State) {a b : Nat} (h : maskAddr a = maskAddr b) :
    s.memReadWord a = s.memReadWord b := by
  have hnext : maskAddr (a + 1) = maskAddr (b + 1) := Nat.ModEq.add_right 1 h
  simp only [State.memReadWord, State.memRead_eq_cell, h, hnext]

/-- Settles O51: the first two bytes of the dump are the word at `I`; masked reads at the same cell agree, so it
is also the word the next step fetches. -/
theorem storedCodeIsFetched : Obligations.StoredCodeIsFetched := by
  intro x s hm hx
  obtain ⟨-, hdump⟩ := ldMemVxDumpsRegisters x s
  obtain ⟨t, ht, hdumped, -, hkeeps⟩ := hdump hm
  have hword : t.memReadWord s.i.toNat = wordOfBytes (s.reg 0) (s.reg 1) :=
    congrArg₂ wordOfBytes (hdumped 0 (Nat.zero_le _)) (hdumped 1 hx)
  refine ⟨t, ht, hword, fun i hcell hf hw hd => ?_⟩
  have hpc : t.pc = s.pc := hkeeps .pc (by decide)
  have hfault : t.fault = s.fault := hkeeps .fault (by decide)
  have hwait : t.wait = s.wait := hkeeps .wait (by decide)
  have hfetch : t.fetchWord = t.memReadWord s.i.toNat := by
    rw [State.fetchWord, hpc]
    exact t.memReadWord_of_maskAddr_eq hcell
  exact step_of_decode_some (hfault.trans hf) (hwait.trans hw) (by rw [hfetch, hword, hd])

/-! Keys. -/

theorem State.keyDown_of_lt (s : State) {k : Byte} (h : k.toNat < 16) : s.keyDown k = s.keys[k.toNat] := by
  simp [State.keyDown, h]

theorem State.keyDown_of_ge (s : State) {k : Byte} (h : 16 ≤ k.toNat) : s.keyDown k = false := by
  simp [State.keyDown, h]

/-- Settles O57: both are `skipIf` on `keyDown`, of which the two sides of 16 are known. -/
theorem keySkips : Obligations.KeySkips := by
  intro x s
  refine ⟨decodeWord_skp x, decodeWord_sknp x, _, _, rfl, rfl, s.skipIf_keeps _, s.skipIf_keeps _,
    fun h => ⟨fun hdown => ?_, fun hup => ?_⟩, fun h => ?_⟩
  · rw [s.keyDown_of_lt h, hdown]; exact ⟨rfl, rfl⟩
  · rw [s.keyDown_of_lt h, hup]; exact ⟨rfl, rfl⟩
  · rw [s.keyDown_of_ge h]; exact ⟨rfl, rfl⟩

/-- Settles O59: the two branches of the handler, by whether the lowest pressed key exists. -/
theorem ldVxKTakesAKeyOrWaits : Obligations.LdVxKTakesAKeyOrWaits := by
  refine fun x s => ⟨decodeWord_ldVxK x, fun k hk hdown hlow => ?takes, fun hup => ?waits⟩
  case takes =>
    exact ⟨_, exec_ldVxK_of_some (s.lowestKey_eq_some k hk hdown hlow), s.reg_setReg_same x _,
      s.setReg_keepsRegs x _, s.setReg_keeps x _⟩
  case waits =>
    exact ⟨_, exec_ldVxK_of_none (s.lowestKey_eq_none hup), rfl, rfl,
      (s.setWait_keeps _).trans (State.setPc_keeps _ _)⟩

end Sys2Proof.Machine
end

section
/-! PROOFS. Nested calls and returns (41_flow.md R84). -/

namespace Sys2Proof.Machine

/-- What a balanced run of calls and returns preserves: the depth, the latch and the entries in use. -/
structure KeepsFrames (s t : State) : Prop where
  sp : t.sp = s.sp
  fault : t.fault = s.fault
  inUse : ∀ k, (h : k < 16) → k < s.sp.val → t.stack[k] = s.stack[k]

theorem runHandlers_cons {i : Instr} {s t : State} (is : List Instr) (h : exec i s.advance = .next t) :
    runHandlers (i :: is) s = runHandlers is t := by
  rw [runHandlers, h]

theorem runHandlers_append {is : List Instr} {s t : State} (js : List Instr)
    (h : runHandlers is s = .next t) : runHandlers (is ++ js) s = runHandlers js t := by
  induction is generalizing s with
  | nil => cases h; rfl
  | cons i is ih =>
    obtain ⟨u, hu⟩ := exec_total i s.advance
    rw [runHandlers_cons is hu] at h
    rw [List.cons_append, runHandlers_cons (is ++ js) hu, ih h]

/-- A call, a body that keeps the frames of the callee, and a return: back past the call, with the caller's frames
kept. -/
theorem call_body_ret_balance {body : List Instr} {s : State} (nnn : Imm12) (ign : Nibble)
    (hlt : s.sp.val < 16)
    (hbody : ∀ c : State, c.sp.val = s.sp.val + 1 → ∃ t, runHandlers body c = .next t ∧ KeepsFrames c t) :
    ∃ t, runHandlers (.call nnn :: (body ++ [.ret ign])) s = .next t ∧ t.pc = s.pc + 2 ∧
      KeepsFrames s t := by
  obtain ⟨-, hpush, -⟩ := callPushesOrOverflows nnn s.advance
  obtain ⟨c, hcall, hpushed, hothers, hcsp, -, hcall_keeps⟩ := hpush hlt
  obtain ⟨t, hrun, hframes⟩ := hbody c hcsp
  have htsp : t.sp.val = s.sp.val + 1 := (congrArg Fin.val hframes.sp).trans hcsp
  obtain ⟨-, hpop, -⟩ := retPopsOrUnderflows ign t.advance
  obtain ⟨u, hret, husp, hupc, hret_keeps⟩ := hpop (by rw [State.advance_sp]; omega)
  have hstack : u.stack = t.stack := hret_keeps .stack (by decide)
  refine ⟨u, ?run, ?pc, ?sp, ?fault, fun k hk hin => ?inUse⟩
  case run => rw [runHandlers_cons _ hcall, runHandlers_append _ hrun, runHandlers_cons _ hret, runHandlers]
  case pc =>
    calc u.pc = t.stack[s.sp.val] := by simpa [htsp] using hupc
      _ = c.stack[s.sp.val] := hframes.inUse s.sp.val hlt (by rw [hcsp, State.advance_sp]; omega)
      _ = s.pc + 2 := hpushed
  case sp => exact Fin.ext (by rw [husp, State.advance_sp, htsp, Nat.add_sub_cancel])
  case fault =>
    calc u.fault = t.fault := hret_keeps .fault (by decide)
      _ = c.fault := hframes.fault
      _ = s.fault := hcall_keeps .fault (by decide)
  case inUse =>
    calc u.stack[k] = t.stack[k] := by rw [hstack]
      _ = c.stack[k] := hframes.inUse k hk (by rw [hcsp, State.advance_sp]; omega)
      _ = s.stack[k] := hothers k hk (by rw [State.advance_sp]; omega)

/-- By induction on the calls: the inner calls and returns are the body of the first call. -/
theorem calls_rets_balance (ign : Nibble) (targets : List Imm12) (s : State)
    (hroom : s.sp.val + targets.length ≤ 16) :
    ∃ t, runHandlers (targets.map .call ++ List.replicate targets.length (.ret ign)) s = .next t ∧
      (targets ≠ [] → t.pc = s.pc + 2) ∧ KeepsFrames s t := by
  induction targets generalizing s with
  | nil => exact ⟨s, rfl, fun h => absurd rfl h, rfl, rfl, fun _ _ _ => rfl⟩
  | cons nnn targets ih =>
    rw [List.length_cons] at hroom
    have hbody (c : State) (hc : c.sp.val = s.sp.val + 1) :
        ∃ t, runHandlers (targets.map .call ++ List.replicate targets.length (.ret ign)) c = .next t ∧
          KeepsFrames c t := by
      obtain ⟨t, hrun, -, hkeeps⟩ := ih c (by omega)
      exact ⟨t, hrun, hkeeps⟩
    obtain ⟨t, hrun, hpc, hkeeps⟩ := call_body_ret_balance nnn ign (by omega) hbody
    refine ⟨t, ?_, fun _ => hpc, hkeeps⟩
    rw [List.map_cons, List.length_cons, List.replicate_succ', List.cons_append, ← List.append_assoc]
    exact hrun

/-- Settles O37: the run is balanced, and at depth 0 one more return finds no entry. -/
theorem callsAndReturnsBalance : Obligations.CallsAndReturnsBalance := by
  intro s targets ign hne hroom
  obtain ⟨t, hrun, hpc, hkeeps⟩ := calls_rets_balance ign targets s hroom
  refine ⟨t, hrun, hpc hne, hkeeps.sp, hkeeps.fault, fun hzero => ?_⟩
  have hempty : t.advance.sp.val = 0 := (congrArg Fin.val hkeeps.sp).trans hzero
  exact ⟨_, exec_ret_of_empty ign t.advance hempty, rfl⟩

end Sys2Proof.Machine
end

section
/-! PROOFS. Drawing a sprite (44_display.md R127 to R132). -/

namespace Sys2Proof.Machine

/-! The pixels of a `DRW`, as a list and as the rule describes them. -/

/-- The pixels that `DRW Vx,Vy,n` lights, in drawing order. They do not depend on the screen. -/
def State.sprite (s : State) (x y n : Nibble) : List (Fin 64 × Fin 32) :=
  spritePixels ((s.reg x).toNat % 64) ((s.reg y).toNat % 32) (s.spriteRows n)

theorem State.drawn_eq (s : State) (x y n : Nibble) :
    s.drawn x y n = Framebuffer.plot s.fb false (s.sprite x y n) := rfl

@[simp] theorem State.sprite_setFb (s : State) (fb : Framebuffer) (x y n : Nibble) :
    (s.setFb fb).sprite x y n = s.sprite x y n := rfl

theorem State.nodup_sprite (s : State) (x y n : Nibble) : (s.sprite x y n).Nodup :=
  nodup_spritePixels _ _ _ (s.spriteRows_length_le n)

theorem State.getElem_spriteRows (s : State) (n : Nibble) (r : Nat) (h : r < (s.spriteRows n).length) :
    (s.spriteRows n)[r] = s.memRead (s.i.toNat + r) :=
  Memory.getElem_readList s.mem s.base _ r h

theorem State.mem_sprite_iff (s : State) (x y n : Nibble) (px : Fin 64) (py : Fin 32) :
    (px, py) ∈ s.sprite x y n ↔ SpriteLights s x y n px py := by
  simp only [State.sprite, mem_spritePixels, State.getElem_spriteRows, State.spriteRows_length, SpriteLights,
    exists_prop, Prod.mk.injEq, Fin.ext_iff, Fin.val_ofNat]

/-! What a `DRW` leaves on the screen and in VF. -/

/-- The state after `DRW Vx,Vy,n`. -/
def State.afterDrw (s : State) (x y n : Nibble) : State :=
  (s.setFb (s.drawn x y n).1).setReg vf (flagByte (s.drawn x y n).2)

theorem exec_drw (x y n : Nibble) (s : State) : exec (.drw x y n) s = .next (s.afterDrw x y n) := rfl

/-- Each lit pixel is flipped once, since none is listed twice. -/
theorem State.pixel_afterDrw (s : State) (x y n : Nibble) (px : Fin 64) (py : Fin 32) :
    (s.afterDrw x y n).fb.pixel px py = (s.fb.pixel px py ^^ decide ((px, py) ∈ s.sprite x y n)) :=
  pixel_plot_spritePixels _ _ _ _ (s.spriteRows_length_le n) px py

theorem State.pixel_afterDrw_ne_iff (s : State) (x y n : Nibble) (px : Fin 64) (py : Fin 32) :
    (s.afterDrw x y n).fb.pixel px py ≠ s.fb.pixel px py ↔ (px, py) ∈ s.sprite x y n := by
  rw [s.pixel_afterDrw]
  by_cases hmem : (px, py) ∈ s.sprite x y n <;> simp [hmem]

/-- The collision flag: some lit pixel was on before. -/
theorem State.drawn_hit_iff (s : State) (x y n : Nibble) :
    (s.drawn x y n).2 = true ↔ ∃ px py, (px, py) ∈ s.sprite x y n ∧ s.fb.pixel px py = true := by
  rw [s.drawn_eq, Framebuffer.plot_hit _ _ _ (s.nodup_sprite x y n)]
  simp

theorem State.vf_afterDrw (s : State) (x y n : Nibble) :
    (s.afterDrw x y n).reg 15 = flagByte (s.drawn x y n).2 :=
  State.reg_setReg_same _ vf _

theorem flagByte_eq_one_iff (c : Bool) : flagByte c = 1 ↔ c = true := by
  cases c <;> decide

/-- Settles O53: the pixels flipped are those of the sprite, and VF is the collision flag. -/
theorem drwXorsTheSprite : Obligations.DrwXorsTheSprite := by
  intro x y n s
  have hhit : (s.drawn x y n).2 = true ↔ ∃ px py, SpriteLights s x y n px py ∧ s.fb.pixel px py = true := by
    simp only [s.drawn_hit_iff, s.mem_sprite_iff]
  refine ⟨decodeWord_drw x y n, _, exec_drw x y n s, fun px py => ?pixels, fun h => ?hit, fun h => ?miss,
    fun r hr => State.reg_setReg_other _ _ hr, exec_keeps (exec_drw x y n s)⟩
  case pixels => rw [s.pixel_afterDrw_ne_iff, s.mem_sprite_iff]
  case hit => exact (s.vf_afterDrw x y n).trans ((flagByte_eq_one_iff _).mpr (hhit.mpr h))
  case miss => rw [s.vf_afterDrw, Bool.eq_false_iff.mpr (mt hhit.mp h)]; rfl

/-- Settles O54: the second drawing flips the same pixels back; it collides where a pixel is lit and on after the
first, that is where the first turned it on. -/
theorem drwTwiceRestoresTheScreen : Obligations.DrwTwiceRestoresTheScreen := by
  intro x y n s
  let s' := s.setFb (s.afterDrw x y n).fb
  refine ⟨_, _, exec_drw x y n s, exec_drw x y n s', fun px py => ?restored, ?flag, ?bit⟩
  case restored =>
    calc (s'.afterDrw x y n).fb.pixel px py
      _ = ((s.afterDrw x y n).fb.pixel px py ^^ decide ((px, py) ∈ s.sprite x y n)) := s'.pixel_afterDrw x y n px py
      _ = s.fb.pixel px py := by rw [s.pixel_afterDrw, Bool.xor_assoc, Bool.xor_self, Bool.xor_false]
  case flag =>
    rw [s'.vf_afterDrw, flagByte_eq_one_iff, s'.drawn_hit_iff]
    refine exists_congr fun px => exists_congr fun py => and_congr_left fun hon => ?_
    have hon : (s.afterDrw x y n).fb.pixel px py = true := hon
    rw [State.sprite_setFb, ← s.pixel_afterDrw_ne_iff, hon]
    exact ne_comm.trans Bool.eq_false_iff.symm
  case bit =>
    rw [s'.vf_afterDrw]
    exact flagByte_eq_zero_or_one _

/-- Settles O55: each pixel is flipped once for each of the two sprites that lights it, in either order. -/
theorem drawsCommuteOnTheScreen : Obligations.DrawsCommuteOnTheScreen := by
  intro x y n x' y' n' a b fb
  refine ⟨_, _, _, _, exec_drw .., exec_drw .., exec_drw .., exec_drw .., fun px py => ?_⟩
  simp only [State.pixel_afterDrw, State.setFb_fb, State.sprite_setFb]
  exact Bool.xor_right_comm _ _ _

/-! How many pixels a sprite lights. -/

/-- Counting a byte's bits from the top is counting them. -/
theorem length_spriteRowPixels (x0 : Nat) (py : Fin 32) (row : Byte) :
    (spriteRowPixels x0 py row).length = bitsSet row := by
  have hreverse : (List.range 8).map (7 - ·) = (List.range 8).reverse := by decide
  calc (spriteRowPixels x0 py row).length
    _ = (List.range 8).countP ((row.getLsbD ·) ∘ (7 - ·)) := by
      rw [spriteRowPixels, List.length_map, List.countP_eq_length_filter]; rfl
    _ = (List.range 8).reverse.countP (row.getLsbD ·) := by rw [← List.countP_map, hreverse]
    _ = bitsSet row := by rw [List.countP_reverse, List.countP_eq_length_filter, bitsSet]

theorem length_spritePixels (x0 y : Nat) (rows : List Byte) :
    (spritePixels x0 y rows).length = (rows.map bitsSet).sum := by
  induction rows generalizing y with
  | nil => rfl
  | cons row rows ih =>
    rw [spritePixels, List.length_append, length_spriteRowPixels, ih, List.map_cons, List.sum_cons]

theorem State.spriteRows_eq_map (s : State) (n : Nibble) :
    s.spriteRows n = (List.range n.toNat).map fun r => s.memRead (s.i.toNat + r) := by
  refine List.ext_getElem (by simp) fun r hr _ => ?_
  rw [s.getElem_spriteRows, List.getElem_map, List.getElem_range]

theorem pixelsChanged_eq_length {a b : Framebuffer} {l : List (Fin 64 × Fin 32)} (hl : l.Nodup)
    (h : ∀ px py, b.pixel px py ≠ a.pixel px py ↔ (px, py) ∈ l) : pixelsChanged a b = l.length := by
  rw [pixelsChanged, ← List.toFinset_card_of_nodup hl]
  refine congrArg Finset.card (Finset.ext fun p => ?_)
  rw [Finset.mem_filter_univ, List.mem_toFinset, ← h, ne_comm]

/-- Settles O56: the changed pixels are those of the sprite, listed once each, a row's bits at a time. -/
theorem drwChangesOnePixelPerSpriteBit : Obligations.DrwChangesOnePixelPerSpriteBit := by
  intro x y n s
  refine ⟨_, exec_drw x y n s, ?_⟩
  rw [pixelsChanged_eq_length (s.nodup_sprite x y n) (s.pixel_afterDrw_ne_iff x y n), State.sprite,
    length_spritePixels, s.spriteRows_eq_map, List.map_map]
  rfl

end Sys2Proof.Machine
end
